-- ==== Sys2Proof/Word.lean ====
section
/-! DEFINITION. The word types of the block (spec/00_scope.md R5, R6): every value is an unsigned integer held in a
bit vector, bit 0 the least significant. -/

namespace Sys2Proof

/-- A 64-bit value: `REG_BITS = 64` (R5); the width of `poly`, `init`, `xorout`, of a table entry, of the working
registers and of `rsp.data`. -/
abbrev Word := BitVec 64

/-- A byte of a message and an index into the table: `BYTE_BITS = 8` (R5). -/
abbrev Byte := BitVec 8

/-- A command word: `CW_BITS = 208` (R5, R61). -/
abbrev CommandWord := BitVec 208

/-- A response record as bits: `RSP_BITS = 74` (R5, R66). -/
abbrev ResponseWord := BitVec 74

end Sys2Proof
end

