-- ==== Sys2Proof/Syntax.lean ====
section
/-! DEFINITION. The commands of CRCG-CMD version 1 (spec/30_encoding.md R62, R64): one constructor per row of
spec/opcode_table.json, each with the operands its format reads and no others. -/

namespace Sys2Proof

/-- The bank that `sel[2]` of RDPRM chooses (spec/44_housekeeping.md R142): 0 the slot `PS`, 1 the slot `ENG`. -/
inductive Bank where
  | ps
  | eng
deriving DecidableEq, Repr

/-- The field that `sel[1:0]` of RDPRM chooses (R142), in the order of their numbers 0, 1, 2, 3. -/
inductive ParamField where
  | poly
  | init
  | xorout
  | ctrl
deriving DecidableEq, Repr

/-- A command. `base` of COMPN and COMPB is all of `cw.x`: which of its bits are used depends on `AW` (R62), so the
meaning takes them. `present` is the data-present bit `P`. -/
inductive Instr where
  | nop
  | cfg (width : Byte) (poly init xorout : Word) (refin refout : Bool)
  | build
  | compn (present : Bool) (base len : Word)
  | compb (present : Bool) (base len : Word)
  | rdtbl (idx : Byte)
  | rdst
  | rdprm (bank : Bank) (field : ParamField)
  /-- A word whose `op` is 8 to 15 (R65 clause 1); every other bit of it is ignored. -/
  | reserved (op : BitVec 4)
deriving DecidableEq, Repr

end Sys2Proof
end

