-- ==== Sys2Proof/WellFormed.lean ====
section
/-! DEFINITION. Which terms of `Instr` stand for a command word. Every value of every field that a format reads may be
presented (spec/30_encoding.md R65 clause 4), so the types of the operands say all but one thing: a reserved word has
an opcode 8 to 15. -/

namespace Sys2Proof

/-- The check on terms (R64, R65 clause 1): a reserved command's `op` is one of 0x8 to 0xF. -/
def Instr.wellFormed : Instr → Bool
  | .nop => true
  | .cfg _ _ _ _ _ _ => true
  | .build => true
  | .compn _ _ _ => true
  | .compb _ _ _ => true
  | .rdtbl _ => true
  | .rdst => true
  | .rdprm _ _ => true
  | .reserved op => decide (8 ≤ op.toNat)

end Sys2Proof
end

