-- ==== Sys2Proof/Decode.lean ====
section
/-! DEFINITION. The command word (spec/30_encoding.md R61, R62, R64, R65): its fields, the decoder, the encoder, the
opcode table as rows, and the host's numbering of a table row's bits. -/

namespace Sys2Proof

/-! ## The fields of a command word (R61) -/

def CommandWord.op (w : CommandWord) : BitVec 4 := w.extractLsb' 0 4
def CommandWord.f0 (w : CommandWord) : Bool := w.getLsbD 4
def CommandWord.f1 (w : CommandWord) : Bool := w.getLsbD 5
def CommandWord.a (w : CommandWord) : Byte := w.extractLsb' 8 8
def CommandWord.x (w : CommandWord) : Word := w.extractLsb' 16 64
def CommandWord.y (w : CommandWord) : Word := w.extractLsb' 80 64
def CommandWord.z (w : CommandWord) : Word := w.extractLsb' 144 64

/-- The word with these fields and 0 in bits 7:6 (R61). -/
def CommandWord.pack (op : BitVec 4) (f0 f1 : Bool) (a : Byte) (x y z : Word) : CommandWord :=
  z ++ y ++ x ++ a ++ 0#2 ++ BitVec.ofBool f1 ++ BitVec.ofBool f0 ++ op

/-! ## RDPRM's selector (spec/44_housekeeping.md R142): `sel = cw.a[2:0]` -/

def Bank.ofBit : Bool → Bank
  | false => .ps
  | true => .eng

def Bank.bit : Bank → Bool
  | .ps => false
  | .eng => true

def ParamField.ofBits (n : BitVec 2) : ParamField :=
  match n.toNat with
  | 0 => .poly
  | 1 => .init
  | 2 => .xorout
  | _ => .ctrl

def ParamField.bits : ParamField → BitVec 2
  | .poly => 0
  | .init => 1
  | .xorout => 2
  | .ctrl => 3

/-- `cw.a` of an RDPRM: `sel` in bits 2:0, the ignored bits 7:3 written as 0 (R65 clause 2, R142). -/
def rdprmOperand (b : Bank) (f : ParamField) : Byte := 0#5 ++ BitVec.ofBool b.bit ++ f.bits

/-! ## Decoder and encoder -/

/-- The command a word stands for, selected by `op` and nothing else (R64); every word is one of the eight commands
or reserved (R65). Bits a format does not read are dropped. -/
def decode (w : CommandWord) : Instr :=
  match w.op.toNat with
  | 0 => .nop
  | 1 => .cfg w.a w.x w.y w.z w.f0 w.f1
  | 2 => .build
  | 3 => .compn w.f0 w.x w.y
  | 4 => .compb w.f0 w.x w.y
  | 5 => .rdtbl w.a
  | 6 => .rdst
  | 7 => .rdprm (Bank.ofBit (w.a.getLsbD 2)) (ParamField.ofBits (w.a.extractLsb' 0 2))
  | _ => .reserved w.op

/-- The opcode of a command (the map of R64). -/
def Instr.opcode : Instr → BitVec 4
  | .nop => 0
  | .cfg _ _ _ _ _ _ => 1
  | .build => 2
  | .compn _ _ _ => 3
  | .compb _ _ _ => 4
  | .rdtbl _ => 5
  | .rdst => 6
  | .rdprm _ _ => 7
  | .reserved op => op

/-- The word of a command, each operand in the field of R62 and 0 in every ignored bit (R65 clause 2, R70). -/
def encode : Instr → CommandWord
  | .nop => CommandWord.pack 0 false false 0 0 0 0
  | .cfg width poly init xorout refin refout => CommandWord.pack 1 refin refout width poly init xorout
  | .build => CommandWord.pack 2 false false 0 0 0 0
  | .compn p base len => CommandWord.pack 3 p false 0 base len 0
  | .compb p base len => CommandWord.pack 4 p false 0 base len 0
  | .rdtbl idx => CommandWord.pack 5 false false idx 0 0 0
  | .rdst => CommandWord.pack 6 false false 0 0 0 0
  | .rdprm b f => CommandWord.pack 7 false false (rdprmOperand b f) 0 0 0
  | .reserved op => CommandWord.pack op false false 0 0 0 0

/-! ## The opcode table (R64; spec/opcode_table.json) -/

/-- The mnemonic of a command, as spec/opcode_table.json spells it. -/
def Instr.mnemonic : Instr → String
  | .nop => "NOP"
  | .cfg _ _ _ _ _ _ => "CFG"
  | .build => "BUILD"
  | .compn _ _ _ => "COMPN"
  | .compb _ _ _ => "COMPB"
  | .rdtbl _ => "RDTBL"
  | .rdst => "RDST"
  | .rdprm _ _ => "RDPRM"
  | .reserved _ => "RESERVED"

/-- A row of the opcode table: a word `w` belongs to it when `w AND mask = pattern`. `reads` has a 1 at every bit of
the word that the command reads (R62); the other bits are ignored. -/
structure OpcodeRow where
  mnemonic : String
  mask : CommandWord
  pattern : CommandWord
  reads : CommandWord
deriving DecidableEq, Repr

/-- The bits of `op` (R61). -/
def opBits : CommandWord := CommandWord.pack 0xF false false 0 0 0 0
/-- The bits read by format P: all but 7:6 (R62). -/
def formatPBits : CommandWord :=
  CommandWord.pack 0xF true true 0xFF (BitVec.allOnes 64) (BitVec.allOnes 64) (BitVec.allOnes 64)
/-- The bits read by format M: `op`, `f0`, `x`, `y` (R62). -/
def formatMBits : CommandWord :=
  CommandWord.pack 0xF true false 0 (BitVec.allOnes 64) (BitVec.allOnes 64) 0

/-- The rows of spec/opcode_table.json. -/
def opcodeRows : List OpcodeRow :=
  [ ⟨"NOP", 0xF, 0x0, opBits⟩,
    ⟨"CFG", 0xF, 0x1, formatPBits⟩,
    ⟨"BUILD", 0xF, 0x2, opBits⟩,
    ⟨"COMPN", 0xF, 0x3, formatMBits⟩,
    ⟨"COMPB", 0xF, 0x4, formatMBits⟩,
    ⟨"RDTBL", 0xF, 0x5, CommandWord.pack 0xF false false 0xFF 0 0 0⟩,
    ⟨"RDST", 0xF, 0x6, opBits⟩,
    ⟨"RDPRM", 0xF, 0x7, CommandWord.pack 0xF false false 0x7 0 0 0⟩,
    ⟨"RESERVED", 0x8, 0x8, opBits⟩ ]

/-- The row's own test of a word. -/
def OpcodeRow.owns (r : OpcodeRow) (w : CommandWord) : Bool := w &&& r.mask == r.pattern

/-! ## A table row's bits as the host numbers them -/

/-- Why a string of bits is no command word (R61: "exactly 208 bits"; R69). -/
inductive DecodeError where
  /-- More bits than a command word has. -/
  | tooLong (bits : Nat)
deriving DecidableEq, Repr

/-- The command word of the low `nbits` bits of `w`, every bit above them 0. Bit `k` of the table's numbering is bit
`k` of the word: the word is presented in parallel and has no byte order (spec/20_memory.md R44). -/
def tableWord (nbits w : Nat) : CommandWord := BitVec.ofNat 208 (w % 2 ^ nbits)

/-- The decoder on bits of any number: more than 208 are refused by name, and a word of 208 always decodes. -/
def decodeBits (nbits w : Nat) : Except DecodeError Instr :=
  if nbits ≤ 208 then .ok (decode (tableWord nbits w)) else .error (.tooLong nbits)

/-- The instruction this decoder reads from the bits `w` of a row of spec/opcode_table.json. -/
def decodeTableWord (nbits w : Nat) : Option Instr :=
  match decodeBits nbits w with
  | .ok i => some i
  | .error _ => none

end Sys2Proof
end

