-- ==== Sys2Proof/Config.lean ====
section
/-! DEFINITION. What an implementation fixes (spec/00_scope.md R5; spec/93_implementation_defined.md U1, U4): the two
OPEN parameters of the block. They are data of one machine that no step changes, so a statement about every state is a
statement about every value of them. And the one free value: what MSG answers where the host has put no byte (U6). -/

namespace Sys2Proof

/-- `NARROW_WIDTH_RULE` (R5, R104, U1): how widths 2 to 7 are handled. `scaled8` is the only value the spec specifies. -/
inductive NarrowRule where
  | scaled8
deriving DecidableEq, Repr

/-- The OPEN parameters of R5. -/
structure Config where
  /-- `MSG_ADDR_BITS`, written `AW`: MSG has `2^AW` bytes (R41). -/
  addrBits : Nat
  narrowRule : NarrowRule
deriving DecidableEq, Repr

/-- The range R5 gives `MSG_ADDR_BITS`: `1 ≤ AW ≤ 64`. -/
abbrev Config.InRange (c : Config) : Prop := 1 ≤ c.addrBits ∧ c.addrBits ≤ 64

/-- The defaults of R5: `AW = 32`, `NARROW_WIDTH_RULE = scaled8`. -/
def Config.default : Config := { addrBits := 32, narrowRule := .scaled8 }

/-- The free value of spec/20_memory.md R42 and U6: the byte MSG answers at an address that the host has put no byte at,
"an unconstrained input". A function of the address, as R41 makes MSG one. It has no body, so a theorem holds whatever it
is (notes/assumptions/3). -/
opaque Config.unbackedByte : Nat → Byte

end Sys2Proof
end

