-- ==== Sys2Proof/Machine/State.lean ====
section
/-! DEFINITION. What the machine is at rest (spec/10_state.md R20 to R31): the two slots `PS` and `ENG`, the message
space MSG the host owns, the two ports, and the host's own moves as data. -/

namespace Sys2Proof.Machine

/-! ## The two slots -/

/-- The contents of the slot `PS` when `PS.valid = 1` (R21). `PS.valid` itself is whether the slot holds one (R30). -/
structure ParamSet where
  width : BitVec 7
  poly : Word
  init : Word
  xorout : Word
  refin : Bool
  refout : Bool
deriving DecidableEq, Repr

/-- The contents of the slot `ENG` when `ENG.valid = 1` (R22): its own copy of a parameter set, and the table of
exactly 256 entries (R23). -/
structure Engine where
  params : ParamSet
  table : Vector Word 256
deriving DecidableEq, Repr

/-! ## The response record (spec/30_encoding.md R66, R67) -/

/-- The kinds of a response's `code`. -/
inductive RspCode where
  | ok
  | invalidArgument
  | nullArgument
  | illegalCommand
deriving DecidableEq, Repr

/-- The values of `cause` that the block produces, 0 to 8 (R67; 9 to 15 are never produced, U12). -/
inductive Cause where
  | none
  | widthRange
  | polyRange
  | initRange
  | xoroutRange
  | paramsAbsent
  | dataAbsent
  | engineAbsent
  | reservedOp
deriving DecidableEq, Repr

/-- One response record (R66). -/
structure Response where
  code : RspCode
  cause : Cause
  len : BitVec 4
  data : Word
deriving DecidableEq, Repr

/-! ## What the host may do (spec/70_reset_and_hazards.md R183) -/

/-- One move of the host. -/
inductive HostMove where
  /-- Present a command word, at any time, and keep presenting it until it is accepted (R175, R183). -/
  | command (w : CommandWord)
  /-- Write one byte of MSG, at the low `AW` bits of `addr` (R41, R183). -/
  | write (addr : Word) (b : Byte)
  /-- Take the response that is pending (R72, R183). -/
  | take
  /-- Apply reset, between commands or while a response waits (R170, U8). -/
  | reset
  /-- Present a command word, and apply reset between its acceptance and its response (R171). -/
  | resetDuring (w : CommandWord)
deriving DecidableEq, Repr

/-- A command word that is presented and not accepted yet (R175). -/
structure Presentation where
  word : CommandWord
  /-- Reset will be applied between this command's acceptance and its response (R171). -/
  cut : Bool
deriving DecidableEq, Repr

/-! ## The state -/

/-- The contents of MSG: address and byte, in the canonical form of `Memory.wf` (Machine/Ops.lean). -/
abbrev Memory := List Host.Cell

/-- The machine. `ps` and `eng` are the whole architectural state (R20); `msg` is the host's message space (R41);
`presented` is the command port (R28, R60) and `rsp` the response port (R28, R66); `config`, `reads` and `host` are the
model's own: the open parameters, the trace of the message read port, and the host's moves to come. -/
structure State where
  /-- The open parameters of this machine (spec/00_scope.md R5); no step changes them. -/
  config : Config
  /-- The slot `PS` (R21); `none` is `PS.valid = 0` (R30). -/
  ps : Option ParamSet
  /-- The slot `ENG` (R22); `none` is `ENG.valid = 0` (R30). -/
  eng : Option Engine
  /-- The message space MSG (spec/20_memory.md R41). -/
  msg : Memory
  /-- The command port (R28, R175): the first word is the one on the port, not accepted yet; any behind it are of
  callers that the arbiter in front of the port holds off (R55, notes/assumptions/6). -/
  presented : List Presentation
  /-- The response port (R28): a response the host has not taken, if any. -/
  rsp : Option Response
  /-- The addresses of MSG that the command accepted last has read, in order (spec/20_memory.md R46, R49). -/
  reads : List Nat
  /-- The host's moves that have not happened yet, the next one first. -/
  host : List HostMove
deriving DecidableEq, Repr

/-- The machine has no fault: "The model has no fault state, no stuck state and no refusal" (spec/60_exceptions.md
R166). The type is empty, so nothing raises one. -/
inductive Fault where
deriving DecidableEq, Repr

/-- Why the model could give an instruction no meaning. -/
inductive Refusal where
  /-- Raised by an arm of `exec` for an instruction not modelled yet, and by nothing else: safe, since the model then
  says nothing of it. No arm raises it. -/
  | notModelled (mnemonic : String)
deriving DecidableEq, Repr

/-- What a step answers. -/
abbrev Result := Host.Outcome State Fault Refusal

/-- The machine right after reset (R30, R170): both valid bits 0, no response pending, the command port accepting.
The defaults of R5 for the open parameters, nothing written to MSG, nothing presented, no move of the host to come
(notes/assumptions/2, 3, 4). -/
def State.reset : State :=
  { config := Config.default, ps := none, eng := none, msg := [], presented := [], rsp := none, reads := [],
    host := [] }

end Sys2Proof.Machine
end

