-- ==== Sys2Proof/Machine/Ops.lean ====
section
/-! DEFINITION. The operations every command shares: the bytes of MSG (spec/20_memory.md R41, R42), ending a command
with a response (spec/30_encoding.md R66), raising an error (spec/60_exceptions.md R156), and the record's bits. -/

namespace Sys2Proof.Machine

/-! ## MSG -/

/-- The byte the host has put at an address, if it has put one there. -/
def Memory.held (m : Memory) (addr : Nat) : Option Byte :=
  match m with
  | [] => none
  | (c, v) :: m => if c = addr then some v else Memory.held m addr

/-- What MSG answers at an address the host has put no byte at: the free value of U6 (notes/assumptions/3). -/
def Memory.unlisted (addr : Nat) : Byte := Config.unbackedByte addr

/-- `MemRead(addr, 1)`: the byte at `addr`; it always succeeds (R42). -/
def Memory.read (m : Memory) (addr : Nat) : Byte := (m.held addr).getD (Memory.unlisted addr)

/-- The host's write of one byte, keeping the canonical form. -/
def Memory.write (m : Memory) (addr : Nat) (b : Byte) : Memory :=
  match m with
  | [] => [(addr, b)]
  | (c, v) :: m =>
    if addr < c then (addr, b) :: (c, v) :: m
    else if addr = c then (addr, b) :: m
    else (c, v) :: Memory.write m addr b

/-- The canonical form: addresses strictly rising. An unlisted address holds no byte, so no cell says what an unlisted
address says, and memories in this form that hold the same bytes are the same list (`Memory.ext_held`). -/
abbrev Memory.wf (m : Memory) : Prop := m.Pairwise fun c d => c.1 < d.1

/-! ## Responses -/

/-- `code` of a cause (R67). -/
def Cause.code : Cause → RspCode
  | .none => .ok
  | .widthRange => .invalidArgument
  | .polyRange => .invalidArgument
  | .initRange => .invalidArgument
  | .xoroutRange => .invalidArgument
  | .paramsAbsent => .nullArgument
  | .dataAbsent => .nullArgument
  | .engineAbsent => .nullArgument
  | .reservedOp => .illegalCommand

/-- A response that carries a result: code OK, cause NONE. -/
def Response.success (len : BitVec 4) (data : Word) : Response :=
  { code := .ok, cause := .none, len := len, data := data }

/-- The response of an error: `respond(code, cause, 0, 0)` (spec/60_exceptions.md R156). -/
def Response.error (c : Cause) : Response :=
  { code := c.code, cause := c, len := 0, data := 0 }

/-- `code` as the two bits of R66. -/
def RspCode.bits : RspCode → BitVec 2
  | .ok => 0
  | .invalidArgument => 1
  | .nullArgument => 2
  | .illegalCommand => 3

/-- `cause` as the four bits of R67. -/
def Cause.bits : Cause → BitVec 4
  | .none => 0
  | .widthRange => 1
  | .polyRange => 2
  | .initRange => 3
  | .xoroutRange => 4
  | .paramsAbsent => 5
  | .dataAbsent => 6
  | .engineAbsent => 7
  | .reservedOp => 8

/-- The 74 bits of a response record: `code` 1:0, `cause` 5:2, `len` 9:6, `data` 73:10 (R66). -/
def Response.bits (r : Response) : ResponseWord := r.data ++ r.len ++ r.cause.bits ++ r.code.bits

/-- Byte `j` of a response's data: `data[8j+7 : 8j]` (R68). -/
def Response.byte (r : Response) (j : Nat) : Byte := r.data.extractLsb' (8 * j) 8

/-- The byte array a response carries: the `len` low bytes of `data`, byte 0 first (R66, R68). -/
def Response.bytes (r : Response) : List Byte := (List.range r.len.toNat).map r.byte

/-! ## Ending a command -/

/-- The state in which a command's response stands on the response port, the command having read the addresses
`reads` of MSG. -/
def State.answered (s : State) (r : Response) (reads : List Nat) : State :=
  { s with rsp := some r, reads := reads }

/-- `respond(OK, NONE, len, data)` of a command that reads no MSG byte. -/
def respond (len : BitVec 4) (data : Word) (s : State) : Result :=
  .next (s.answered (Response.success len data) [])

/-- `raise` (R156): no state element is written, no MSG read is made, the response is `respond(code, cause, 0, 0)`, and
the command is over. Nothing is saved and control goes nowhere, so there is no return from it either (R157). -/
def raise (c : Cause) (s : State) : Result := .next (s.answered (Response.error c) [])

end Sys2Proof.Machine
end

