-- ==== Sys2Proof/Machine/Operands.lean ====
section
/-! DEFINITION. The operand forms: the effective addresses of a message (spec/20_memory.md R43) and the fields of a
parameter set that RDPRM selects (spec/44_housekeeping.md R142). -/

namespace Sys2Proof.Machine

/-- The address of `data[k]`: `(base + k) mod 2^AW`, where `base = cw.x[AW−1:0]` (R43). -/
def effectiveAddress (c : Config) (x : Word) (k : Nat) : Nat :=
  (x.toNat % 2 ^ c.addrBits + k) % 2 ^ c.addrBits

/-- The addresses of a message, one per byte, in ascending order of `k` (R43, R46). -/
def messageAddresses (c : Config) (x len : Word) : List Nat :=
  (List.range len.toNat).map (effectiveAddress c x)

/-- The message `data[0 .. len−1]` (R43). -/
def message (s : State) (x len : Word) : List Byte :=
  (messageAddresses s.config x len).map s.msg.read

/-- The CTRL view of a parameter set: width in bits 7:0, refin in bit 8, refout in bit 9, the rest 0 (R142). -/
def ParamSet.ctrl (p : ParamSet) : Word :=
  (BitVec.ofBool p.refout ++ BitVec.ofBool p.refin ++ p.width.setWidth 8).setWidth 64

/-- The field RDPRM selects (R142). -/
def ParamSet.field (p : ParamSet) : ParamField → Word
  | .poly => p.poly
  | .init => p.init
  | .xorout => p.xorout
  | .ctrl => p.ctrl

/-- The parameter set in a bank, if the bank holds one (R142). -/
def State.bank (s : State) : Bank → Option ParamSet
  | .ps => s.ps
  | .eng => s.eng.map Engine.params

/-- What reading an empty bank raises (R142, R154). -/
def absentCause : Bank → Cause
  | .ps => .paramsAbsent
  | .eng => .engineAbsent

end Sys2Proof.Machine
end

