-- ==== Sys2Proof/Machine/BitReflection.lean ====
section
/-! DEFINITION. The unit `bit_reflection_unit`: the function `reflect` (spec/41_bit_reflection_unit.md R90). -/

namespace Sys2Proof.Machine

/-- `reflect(v, n)` (R90): bit `n−1−k` of the result is bit `k` of `v` for `k < n`, all higher bits are 0. Bit 0 goes to
the top position; the rest is reflected below it. -/
def reflect (v : Word) : Nat → Word
  | 0 => 0
  | n + 1 => ((v &&& 1) <<< n) ||| reflect (v >>> 1) n

/-- `reflect` where a flag asks for it, the value itself where not. -/
def reflectIf (flag : Bool) (v : Word) (n : Nat) : Word := if flag then reflect v n else v

end Sys2Proof.Machine
end

