-- ==== Sys2Proof/Machine/Flags.lean ====
section
/-! DEFINITION. The only one-bit status elements of the block, the two valid bits (spec/10_state.md R24), and the
status word RDST answers (spec/44_housekeeping.md R141). The block has no condition codes. -/

namespace Sys2Proof.Machine

/-- `PS.valid` (R21). -/
def State.psValid (s : State) : Bool := s.ps.isSome

/-- `ENG.valid` (R22). -/
def State.engValid (s : State) : Bool := s.eng.isSome

/-- `zext_64({ENG.valid, PS.valid})` (R141). -/
def State.statusWord (s : State) : Word :=
  (BitVec.ofBool s.engValid ++ BitVec.ofBool s.psValid).setWidth 64

end Sys2Proof.Machine
end

