-- ==== Sys2Proof/Machine/ParameterValidator.lean ====
section
/-! DEFINITION. The unit `parameter_validator` and its command CFG (spec/40_parameter_validator.md R80 to R88). -/

namespace Sys2Proof.Machine

/-- `mask(w) = 2^w − 1`, in the document's own form: the all-ones value shifted right by `64 − w` (R81). -/
def mask (w : Nat) : Word := BitVec.allOnes 64 >>> (64 - w)

/-- The first check of CFG that fails, in the order of R87: the width (R82), then polynomial, initial value and
xor-out value against the mask as unsigned comparisons (R83). No other check exists (R86). -/
def cfgError (width : Byte) (poly init xorout : Word) : Option Cause :=
  if width.toNat < 2 ∨ 64 < width.toNat then some .widthRange
  else if mask width.toNat < poly then some .polyRange
  else if mask width.toNat < init then some .initRange
  else if mask width.toNat < xorout then some .xoroutRange
  else none

/-- CFG (R80): on success all of `PS` is written together (R84) and nothing else; on failure nothing is (R85). -/
def execCfg (width : Byte) (poly init xorout : Word) (refin refout : Bool) (s : State) : Result :=
  match cfgError width poly init xorout with
  | some c => raise c s
  | none =>
    respond 0 0
      { s with ps := some { width := width.setWidth 7, poly := poly, init := init, xorout := xorout,
                            refin := refin, refout := refout } }

end Sys2Proof.Machine
end

