-- ==== Sys2Proof/Machine/TableEngine.lean ====
section
/-! DEFINITION. The unit `table_lookup_engine` and its commands BUILD and RDTBL (spec/42_table_lookup_engine.md R100 to
R110). -/

namespace Sys2Proof.Machine

/-! ## Table generation (R102 to R105) -/

/-- Step 1 (R102): the index, bit-reversed across 8 bits when `refin`. -/
def inByte (refin : Bool) (i : Byte) : Word := reflectIf refin (i.setWidth 64) 8

/-- One round of step 3 for `w ≥ 8` (R103): the bit tested is the one before the shift. -/
def wideRound (w : Nat) (poly r : Word) : Word :=
  if r.getLsbD (w - 1) then (r <<< 1) ^^^ poly else r <<< 1

/-- Steps 2 and 3 for `w ≥ 8` (R103). -/
def wideRegister (w : Nat) (poly b : Word) : Word :=
  Nat.repeat (wideRound w poly) 8 (b <<< (w - 8))

/-- One round of step 3' (R104), in an 8-bit register with the scaled polynomial. -/
def narrowRound (p8 r : Byte) : Byte :=
  if r.getLsbD 7 then (r <<< 1) ^^^ p8 else r <<< 1

/-- Steps 2', 3' and the shift back for `2 ≤ w ≤ 7`, with `s = 8 − w` (R104). -/
def narrowRegister (w : Nat) (poly b : Word) : Word :=
  (Nat.repeat (narrowRound ((poly <<< (8 - w)).setWidth 8)) 8 (b.setWidth 8) >>> (8 - w)).setWidth 64

/-- The register after step 3: R103 when `w ≥ 8`, the rule `NARROW_WIDTH_RULE` names when `w ≤ 7` (R104, R105). -/
def tableRegister (rule : NarrowRule) (w : Nat) (poly b : Word) : Word :=
  if 8 ≤ w then wideRegister w poly b
  else match rule with
    | .scaled8 => narrowRegister w poly b

/-- `TableEntry(w, poly, refin, i)` (R105): step 4 reflects the register when `refin`, step 5 masks it. -/
def tableEntry (rule : NarrowRule) (w : Nat) (poly : Word) (refin : Bool) (i : Byte) : Word :=
  reflectIf refin (tableRegister rule w poly (inByte refin i)) w &&& mask w

/-- The 256 entries, entry `i` at index `i` (R100, R102). -/
def buildTable (rule : NarrowRule) (p : ParamSet) : Vector Word 256 :=
  ⟨((List.range 256).map
      (fun i => tableEntry rule p.width.toNat p.poly p.refin (BitVec.ofNat 8 i))).toArray, by simp⟩

/-- A new engine: its own copy of the parameter set, and the table made from it (R101). -/
def newEngine (rule : NarrowRule) (p : ParamSet) : Engine :=
  { params := p, table := buildTable rule p }

/-! ## Lookup and the two commands -/

/-- `ENG.table[idx]` (R107): an 8-bit index is always in range. -/
def Engine.lookup (e : Engine) (idx : Byte) : Word := e.table[idx.toNat]'idx.isLt

/-- BUILD (R100): all of `ENG` is written together, `PS` is not (R101). -/
def execBuild (s : State) : Result :=
  match s.ps with
  | none => raise .paramsAbsent s
  | some p => respond 0 0 { s with eng := some (newEngine s.config.narrowRule p) }

/-- RDTBL (R108). -/
def execRdtbl (idx : Byte) (s : State) : Result :=
  match s.eng with
  | none => raise .engineAbsent s
  | some e => respond 8 (e.lookup idx) s

end Sys2Proof.Machine
end

