-- ==== Sys2Proof/Machine/Compute.lean ====
section
/-! DEFINITION. The compute path of `crc_generator` and its commands COMPN and COMPB (spec/43_crc_generator.md R120 to
R134). -/

namespace Sys2Proof.Machine

/-- The working width of a parameter set. -/
def ParamSet.w (p : ParamSet) : Nat := p.width.toNat

/-! ## The computation (R122 to R127) -/

/-- The running register at the start (R122). -/
def startRegister (p : ParamSet) : Word := reflectIf p.refin p.init p.w

/-- The index of the byte step, the low 8 bits of an XOR: R123 when `refin`, R124 when not and `w ≥ 8`, and R125 (the
rule `NARROW_WIDTH_RULE` names) when not and `w ≤ 7`. -/
def stepIndex (rule : NarrowRule) (p : ParamSet) (crc : Word) (b : Byte) : Byte :=
  if p.refin then (crc ^^^ b.setWidth 64).setWidth 8
  else if 8 ≤ p.w then ((crc >>> (p.w - 8)) ^^^ b.setWidth 64).setWidth 8
  else match rule with
    | .scaled8 => ((crc <<< (8 - p.w)) ^^^ b.setWidth 64).setWidth 8

/-- The byte step (R123, R124, R125): one lookup, the register moved by 8, the mask. -/
def byteStep (rule : NarrowRule) (e : Engine) (crc : Word) (b : Byte) : Word :=
  (e.lookup (stepIndex rule e.params crc b) ^^^ (if e.params.refin then crc >>> 8 else crc <<< 8))
    &&& mask e.params.w

/-- The running register after the bytes of a message, the first one first (R44 clause 1, R123 to R125). -/
def runRegister (rule : NarrowRule) (e : Engine) (data : List Byte) : Word :=
  data.foldl (byteStep rule e) (startRegister e.params)

/-- `Check` (R131): the register after the message, reflected when the two flags differ (R126), then xor-out (R127). -/
def Engine.check (e : Engine) (rule : NarrowRule) (data : List Byte) : Word :=
  reflectIf (e.params.refin != e.params.refout) (runRegister rule e data) e.params.w ^^^ e.params.xorout

/-- `L = ceil(w / 8) = (w + 7) >> 3` (R132). -/
def Engine.byteLength (e : Engine) : Nat := (e.params.w + 7) >>> 3

/-! ## The two commands -/

/-- What COMPN and COMPB share: the checks of R120 in their order, before any read; then the whole message is read once,
in order (R46), and its check value is answered with the length the result form gives. Nothing is kept (R121). -/
def compute (form : Engine → BitVec 4) (present : Bool) (base len : Word) (s : State) : Result :=
  match s.eng with
  | none => raise .engineAbsent s
  | some e =>
    if present then
      .next (s.answered (Response.success (form e) (e.check s.config.narrowRule (message s base len)))
        (messageAddresses s.config base len))
    else raise .dataAbsent s

/-- COMPN (R129): the numeric result, `len = 8`. -/
def execCompn (present : Bool) (base len : Word) (s : State) : Result :=
  compute (fun _ => 8) present base len s

/-- COMPB (R130): the byte-array result, `len = L`. -/
def execCompb (present : Bool) (base len : Word) (s : State) : Result :=
  compute (fun e => BitVec.ofNat 4 e.byteLength) present base len s

end Sys2Proof.Machine
end

