-- ==== Sys2Proof/Machine/Housekeeping.lean ====
section
/-! DEFINITION. The commands NOP, RDST and RDPRM (spec/44_housekeeping.md R140 to R142), and the answer to a reserved
word (spec/30_encoding.md R65 clause 1). -/

namespace Sys2Proof.Machine

/-- NOP (R140). -/
def execNop (s : State) : Result := respond 0 0 s

/-- RDST (R141): it succeeds in every state. -/
def execRdst (s : State) : Result := respond 8 s.statusWord s

/-- RDPRM (R142): the bank must hold a parameter set. -/
def execRdprm (bank : Bank) (field : ParamField) (s : State) : Result :=
  match s.bank bank with
  | none => raise (absentCause bank) s
  | some p => respond 8 (p.field field) s

/-- A reserved word: accepted, answered IllegalCommand/RESERVED_OP, never executed as some other command (R65, R155).
The opcode itself makes no difference. -/
def execReserved (_op : BitVec 4) (s : State) : Result := raise .reservedOp s

end Sys2Proof.Machine
end

