-- ==== Sys2Proof/Machine/Dispatch.lean ====
section
/-! DEFINITION. The meaning of every command: one arm per constructor of `Instr`. -/

namespace Sys2Proof.Machine

def exec (i : Instr) (s : State) : Host.Outcome State Fault Refusal :=
  match i with
  | .nop => Sys2Proof.Machine.execNop s
  | .cfg width poly init xorout refin refout => Sys2Proof.Machine.execCfg width poly init xorout refin refout s
  | .build => Sys2Proof.Machine.execBuild s
  | .compn present base len => Sys2Proof.Machine.execCompn present base len s
  | .compb present base len => Sys2Proof.Machine.execCompb present base len s
  | .rdtbl idx => Sys2Proof.Machine.execRdtbl idx s
  | .rdst => Sys2Proof.Machine.execRdst s
  | .rdprm bank field => Sys2Proof.Machine.execRdprm bank field s
  | .reserved op => Sys2Proof.Machine.execReserved op s

end Sys2Proof.Machine
end

