-- ==== Sys2Proof/Machine/HostPort.lean ====
section
/-! DEFINITION. The two ports and the moves of the host (spec/30_encoding.md R60; spec/70_reset_and_hazards.md R170,
R171, R175, R183). No move runs a command. -/

namespace Sys2Proof.Machine

/-- The command port accepts: no response is waiting to be taken (R60, R183; spec/93_implementation_defined.md U8). -/
def State.accepting (s : State) : Bool := s.rsp.isNone

/-- The command that is accepted now, with the state it leaves the port in; `none` where nothing is presented or the port
does not accept (R60). -/
def State.accepted (s : State) : Option (Presentation × State) :=
  match s.presented with
  | [] => none
  | p :: ps => if s.accepting then some (p, { s with presented := ps }) else none

/-- The host presents a command: it waits until it is accepted (R175). -/
def present (p : Presentation) (s : State) : State := { s with presented := s.presented ++ [p] }

/-- Reset (R170): both valid bits 0, any command in progress abandoned, the response port empty. MSG is the host's, and so
is a word that is presented and not accepted; the parameters are the machine's. These stay (notes/assumptions/11). -/
def applyReset (s : State) : State := { s with ps := none, eng := none, rsp := none, reads := [] }

/-- The host writes a byte of MSG (R41, R183), at the low `AW` bits of the address (notes/assumptions/13). -/
def hostWrite (addr : Word) (b : Byte) (s : State) : State :=
  { s with msg := s.msg.write (addr.toNat % 2 ^ s.config.addrBits) b }

/-- The host takes the response that is pending, if there is one (R183). -/
def takeResponse (s : State) : State := { s with rsp := none }

/-- The effect of one move of the host (R183). -/
def HostMove.apply (s : State) : HostMove → State
  | .command w => present { word := w, cut := false } s
  | .write addr b => hostWrite addr b s
  | .take => takeResponse s
  | .reset => applyReset s
  | .resetDuring w => present { word := w, cut := true } s

/-- The host's next move takes effect; with none to come the block is idle and nothing changes (R60). -/
def hostAct (s : State) : State :=
  match s.host with
  | [] => s
  | m :: rest => m.apply { s with host := rest }

end Sys2Proof.Machine
end

