-- ==== Sys2Proof/Machine/Step.lean ====
section
/-! DEFINITION. One step: a presented command is accepted and runs, or the host moves (spec/30_encoding.md R60;
spec/70_reset_and_hazards.md R175, R183). A command that is accepted runs to its response in this one step
(spec/00_scope.md R9). -/

namespace Sys2Proof.Machine

/-- The step. A command that is presented to an accepting port runs, or is cut short by reset with no other effect (R171).
Otherwise the host makes its next move, so a command that is not accepted yet does not keep the host from taking the
response or applying reset (R175, R183, U8). -/
def step (s : State) : Host.Outcome State Fault Refusal :=
  match s.accepted with
  | some (p, t) => if p.cut then .next (applyReset t) else exec (decode p.word) t
  | none => .next (hostAct s)

/-- The command of a table row on an accepting command port (notes/assumptions/4): a response still waiting is taken, and
the word is presented before any other. -/
def State.withFetchWord (s : State) (nbits w : Nat) : State :=
  { s with rsp := none, presented := { word := tableWord nbits w, cut := false } :: s.presented }

end Sys2Proof.Machine
end

