-- ==== Sys2Proof/Machine/Assembler.lean ====
section
/-! DEFINITION. The assembler of spec/30_encoding.md R70: a line of characters, the line it stands for (a mnemonic and
its operands as numbers), its commands and their words. -/

namespace Sys2Proof.Machine

/-- A line of R70. `SETUP` is the one pseudo-command. -/
inductive AsmLine where
  | nop
  | cfg (width poly init xorout refin refout : Nat)
  | build
  | compn (base len : Nat)
  | compnNull
  | compb (base len : Nat)
  | compbNull
  | rdtbl (idx : Nat)
  | rdst
  | rdprm (sel : Nat)
  | setup (width poly init xorout refin refout : Nat)
deriving DecidableEq, Repr

/-- The command of a CFG line; `none` where an operand does not fit its field (R70). The checks of CFG itself are not
made, since presenting what they refuse is how the error cases are tested. -/
def assembleCfg (width poly init xorout refin refout : Nat) : Option Instr :=
  if width < 2 ^ 8 ∧ poly < 2 ^ 64 ∧ init < 2 ^ 64 ∧ xorout < 2 ^ 64 ∧ refin < 2 ∧ refout < 2 then
    some (.cfg (BitVec.ofNat 8 width) (BitVec.ofNat 64 poly) (BitVec.ofNat 64 init) (BitVec.ofNat 64 xorout)
      (refin == 1) (refout == 1))
  else none

/-- The `base` and `len` of a compute line, if they fit their fields. -/
def assembleRange (base len : Nat) : Option (Word × Word) :=
  if base < 2 ^ 64 ∧ len < 2 ^ 64 then some (BitVec.ofNat 64 base, BitVec.ofNat 64 len) else none

/-- The RDPRM of a selector 0 to 7: `sel[2]` the bank, `sel[1:0]` the field (R70, R142). -/
def rdprmOfSel (sel : BitVec 3) : Instr :=
  .rdprm (Bank.ofBit (sel.getLsbD 2)) (ParamField.ofBits (sel.extractLsb' 0 2))

/-- The commands a line stands for (R70): `null` gives `P = 0, x = 0, y = 0`, and SETUP is CFG then BUILD. -/
def AsmLine.commands : AsmLine → Option (List Instr)
  | .nop => some [.nop]
  | .cfg w p i x ri ro => (assembleCfg w p i x ri ro).map fun c => [c]
  | .build => some [.build]
  | .compn base len => (assembleRange base len).map fun r => [.compn true r.1 r.2]
  | .compnNull => some [.compn false 0 0]
  | .compb base len => (assembleRange base len).map fun r => [.compb true r.1 r.2]
  | .compbNull => some [.compb false 0 0]
  | .rdtbl idx => if idx < 2 ^ 8 then some [.rdtbl (BitVec.ofNat 8 idx)] else none
  | .rdst => some [.rdst]
  | .rdprm sel => if sel < 2 ^ 3 then some [rdprmOfSel (BitVec.ofNat 3 sel)] else none
  | .setup w p i x ri ro => (assembleCfg w p i x ri ro).map fun c => [c, .build]

/-- The command words of a line, 0 in every ignored bit (R70). -/
def AsmLine.assemble (l : AsmLine) : Option (List CommandWord) := l.commands.map (List.map encode)

/-! ## The characters of a line (R70): the mnemonic, then the operands separated by commas, a comment after `;`
(notes/assumptions/8) -/

def isBlank (c : Char) : Bool := c == ' ' || c == '\t'

/-- The characters without blanks at either end. -/
def trimBlanks (cs : List Char) : List Char :=
  ((cs.dropWhile isBlank).reverse.dropWhile isBlank).reverse

/-- The pieces between commas. -/
def splitCommas : List Char → List (List Char)
  | [] => [[]]
  | c :: cs =>
    match splitCommas cs with
    | [] => [[c]]
    | piece :: pieces => if c == ',' then [] :: piece :: pieces else (c :: piece) :: pieces

/-- A digit's value, if it is one of the base. -/
def digitValue (base : Nat) (c : Char) : Option Nat :=
  let n := c.toNat
  let v := if 48 ≤ n ∧ n ≤ 57 then n - 48 else if 65 ≤ n ∧ n ≤ 70 then n - 55 else if 97 ≤ n ∧ n ≤ 102 then n - 87
    else base
  if v < base then some v else none

/-- The number a list of digits stands for, the most significant first. -/
def digitsValue (base : Nat) (acc : Nat) : List Char → Option Nat
  | [] => some acc
  | c :: cs => (digitValue base c).bind fun d => digitsValue base (acc * base + d) cs

/-- A number, in decimal or `0x` hexadecimal. -/
def readNumber : List Char → Option Nat
  | [] => none
  | '0' :: 'x' :: c :: cs => digitsValue 16 0 (c :: cs)
  | c :: cs => digitsValue 10 0 (c :: cs)

/-- The names R70 gives the selectors of RDPRM. -/
def readSel (cs : List Char) : Option Nat :=
  match cs with
  | ['P', 'S', '.', 'P', 'O', 'L', 'Y'] => some 0
  | ['P', 'S', '.', 'I', 'N', 'I', 'T'] => some 1
  | ['P', 'S', '.', 'X', 'O', 'R', 'O', 'U', 'T'] => some 2
  | ['P', 'S', '.', 'C', 'T', 'R', 'L'] => some 3
  | ['E', 'N', 'G', '.', 'P', 'O', 'L', 'Y'] => some 4
  | ['E', 'N', 'G', '.', 'I', 'N', 'I', 'T'] => some 5
  | ['E', 'N', 'G', '.', 'X', 'O', 'R', 'O', 'U', 'T'] => some 6
  | ['E', 'N', 'G', '.', 'C', 'T', 'R', 'L'] => some 7
  | cs => readNumber cs

/-- The six operands of CFG and SETUP. -/
def readSix (line : Nat → Nat → Nat → Nat → Nat → Nat → AsmLine) (ops : List (List Char)) : Option AsmLine :=
  match ops.mapM readNumber with
  | some [w, p, i, x, ri, ro] => some (line w p i x ri ro)
  | _ => none

/-- The operands of COMPN and COMPB: `null`, or base and length. -/
def readMessage (line : Nat → Nat → AsmLine) (nullLine : AsmLine) (ops : List (List Char)) : Option AsmLine :=
  if ops = [['n', 'u', 'l', 'l']] then some nullLine
  else match ops.mapM readNumber with
    | some [base, len] => some (line base len)
    | _ => none

/-- The line of a mnemonic and its operands. -/
def readOperands (mnemonic : List Char) (ops : List (List Char)) : Option AsmLine :=
  match mnemonic, ops with
  | ['N', 'O', 'P'], [] => some .nop
  | ['C', 'F', 'G'], ops => readSix .cfg ops
  | ['B', 'U', 'I', 'L', 'D'], [] => some .build
  | ['C', 'O', 'M', 'P', 'N'], ops => readMessage .compn .compnNull ops
  | ['C', 'O', 'M', 'P', 'B'], ops => readMessage .compb .compbNull ops
  | ['R', 'D', 'T', 'B', 'L'], [idx] => (readNumber idx).map .rdtbl
  | ['R', 'D', 'S', 'T'], [] => some .rdst
  | ['R', 'D', 'P', 'R', 'M'], [sel] => (readSel sel).map .rdprm
  | ['S', 'E', 'T', 'U', 'P'], ops => readSix .setup ops
  | _, _ => none

/-- The line of a list of characters, `none` where it is no line of R70. -/
def readLine (cs : List Char) : Option AsmLine :=
  let code := trimBlanks (cs.takeWhile (· != ';'))
  let rest := trimBlanks (code.dropWhile (fun c => !isBlank c))
  readOperands (code.takeWhile (fun c => !isBlank c))
    (if rest.isEmpty then [] else (splitCommas rest).map trimBlanks)

/-- The command words of a line of characters. -/
def assembleText (cs : List Char) : Option (List CommandWord) := (readLine cs).bind AsmLine.assemble

end Sys2Proof.Machine
end

