-- ==== Sys2Proof/Machine/BitSerial.lean ====
section
/-! DEFINITION. The bit-serial forms the spec gives beside the table method, which statements compare the machine with:
`Plain` (spec/42_table_lookup_engine.md R105) and `Serial` (spec/43_crc_generator.md R128). No command runs them. -/

namespace Sys2Proof.Machine

/-- One bit into the `w`-bit register: the test looks at the register before the shift (R105, R128). -/
def serialBit (w : Nat) (poly r : Word) (bit : Bool) : Word :=
  if r.getLsbD (w - 1) ^^ bit then ((r <<< 1) &&& mask w) ^^^ poly else (r <<< 1) &&& mask w

/-- The bits of a byte in the order they are taken: bit 7 first, or bit 0 first when `refin` (R44 clause 2, R128). -/
def byteBits (refin : Bool) (b : Byte) : List Bool :=
  if refin then (List.range 8).map b.getLsbD else (List.range 8).map (fun k => b.getLsbD (7 - k))

/-- The bits of one byte into the register. -/
def serialByte (w : Nat) (poly : Word) (refin : Bool) (r : Word) (b : Byte) : Word :=
  (byteBits refin b).foldl (serialBit w poly) r

/-- `Plain(w, poly, b)` (R105). -/
def plain (w : Nat) (poly : Word) (b : Byte) : Word := serialByte w poly false 0 b

/-- `Serial(w, poly, init, xorout, refin, refout, data)` (R128). -/
def serial (p : ParamSet) (data : List Byte) : Word :=
  reflectIf p.refout (data.foldl (serialByte p.w p.poly p.refin) p.init) p.w ^^^ p.xorout

end Sys2Proof.Machine
end

