-- ==== Sys2Proof/Safety.lean ====
section
/-! DEFINITION. What a state of a good run keeps: the invariants of spec/10_state.md R29, with the canonical form of
MSG and the shape of a response (spec/30_encoding.md R66). A safe run is one whose every state has `State.Inv`. -/

namespace Sys2Proof.Machine

/-- The legal values of a parameter set (R21, R29 clause 1). -/
structure ParamSet.Valid (p : ParamSet) : Prop where
  width_ge : 2 ≤ p.w
  width_le : p.w ≤ 64
  poly_le : p.poly ≤ mask p.w
  init_le : p.init ≤ mask p.w
  xorout_le : p.xorout ≤ mask p.w

/-- The legal values of an engine (R22, R29 clause 2): its parameter set, and the table that belongs to it. -/
structure Engine.Valid (e : Engine) (rule : NarrowRule) : Prop where
  params : e.params.Valid
  table_eq : ∀ i : Byte, e.lookup i = tableEntry rule e.params.w e.params.poly e.params.refin i
  table_le : ∀ i : Byte, e.lookup i ≤ mask e.params.w

/-- A response record as R66 and R67 allow it: the code is that of the cause, and an error carries no result. -/
structure Response.WellShaped (r : Response) : Prop where
  code_eq : r.code = r.cause.code
  error_empty : r.code ≠ .ok → r.len = 0 ∧ r.data = 0

/-- MSG in canonical form, every address an `AW`-bit one (R41). -/
structure Memory.Fits (m : Memory) (c : Config) : Prop where
  wf : m.wf
  in_range : ∀ cell ∈ m, cell.1 < 2 ^ c.addrBits

/-- The invariant of a run. -/
structure State.Inv (s : State) : Prop where
  config : s.config.InRange
  ps : ∀ p, s.ps = some p → p.Valid
  eng : ∀ e, s.eng = some e → e.Valid s.config.narrowRule
  /-- An engine is built only from a parameter set (R29 clauses 3 and 4). -/
  eng_needs_ps : s.eng.isSome → s.ps.isSome
  msg : s.msg.Fits s.config
  reads : ∀ a ∈ s.reads, a < 2 ^ s.config.addrBits
  rsp : ∀ r, s.rsp = some r → r.WellShaped

/-- A step that applies reset: the command accepted is cut short by it (R171), or none is accepted and reset is the
host's next move (R170). -/
def State.resetsNext (s : State) : Bool :=
  match s.accepted with
  | some (p, _) => p.cut
  | none => s.host.head? == some .reset

end Sys2Proof.Machine
end

