-- ==== Sys2Proof/Certificates/Slice0/Obligations.lean ====
section
/-! DEFINITION. The statements for the provers. Each docstring names the rule of spec/ it formalises or rests on. An
answer is written `s.answered r l`: the state `s` with the response `r` on the response port and `l` as the addresses
of MSG the command has read, everything else as it was (the first clause of `AnswerChangesPortOnly` says so). -/

open Sys2Proof Sys2Proof.Machine

/-! ## Encoding -/

/-- Words written out in spec/95_test_vectors.md section 2.7 decode to the commands they stand for; one of them has
every ignored bit of a COMPN set. -/
def Obligations.SpecWordsDecode : Prop :=
  decode 0 = .nop ∧
  decode 0x080F0C21 = .cfg 12 0x80F 0 0 false true ∧
  decode 0x00000000FFFFFFFF00000000FFFFFFFF0000000004C11DB72031 =
    .cfg 32 0x04C11DB7 0xFFFFFFFF 0xFFFFFFFF true true ∧
  decode 0x02 = .build ∧
  decode 0x0000000000000000000000000000000900000000000001000013 = .compn true 0x100 9 ∧
  decode 0x0000000000000000000000000000000900000000000001000014 = .compb true 0x100 9 ∧
  decode 0x00000000DEADBEEF00000000000000090000000000000100ABF3 = .compn true 0x100 9 ∧
  decode 0xFF05 = .rdtbl 255 ∧
  decode 0x06 = .rdst ∧
  decode 0x0307 = .rdprm .ps .ctrl ∧
  decode 0x0407 = .rdprm .eng .poly ∧
  decode 0x09 = .reserved 9

/-- Decoding the encoding of any well-formed command gives it back, with every operand at every value its field admits
(spec/30_encoding.md R61, R62, R64). -/
def Obligations.DecodeEncodeRoundTrip : Prop :=
  ∀ i : Instr, i.wellFormed = true → decode (encode i) = i

/-- R62, R64: the opcode field alone selects the command, and each operand is the field of the table of R62 as it
stands; `sel` of RDPRM is `cw.a[2:0]`, its bit 2 the bank and its bits 1:0 the field's number (R142). -/
def Obligations.OpcodeSelectsCommand : Prop :=
  ∀ w : CommandWord,
    (w.op = 0 → decode w = .nop) ∧
    (w.op = 1 → decode w = .cfg w.a w.x w.y w.z w.f0 w.f1) ∧
    (w.op = 2 → decode w = .build) ∧
    (w.op = 3 → decode w = .compn w.f0 w.x w.y) ∧
    (w.op = 4 → decode w = .compb w.f0 w.x w.y) ∧
    (w.op = 5 → decode w = .rdtbl w.a) ∧
    (w.op = 6 → decode w = .rdst) ∧
    (w.op = 7 → ∃ b f, decode w = .rdprm b f ∧ (b = .eng ↔ w.a.toNat / 4 % 2 = 1) ∧
      (f = .poly ↔ w.a.toNat % 4 = 0) ∧ (f = .init ↔ w.a.toNat % 4 = 1) ∧ (f = .xorout ↔ w.a.toNat % 4 = 2) ∧
      (f = .ctrl ↔ w.a.toNat % 4 = 3)) ∧
    (8 ≤ w.op.toNat → decode w = .reserved w.op)

/-- R65: the decoder is total and unambiguous. Every word decodes to a well-formed command, and exactly one row of the
opcode table owns the word, the row of that command. -/
def Obligations.EveryWordIsExactlyOneRow : Prop :=
  ∀ w : CommandWord, (decode w).wellFormed = true ∧
    ∃ r, opcodeRows.filter (fun r => r.owns w) = [r] ∧ r.mnemonic = (decode w).mnemonic

/-- R65 clause 2, R62: two words of one row that agree on the bits that row reads decode to the same command, whatever
their other bits. -/
def Obligations.IgnoredBitsHaveNoEffect : Prop :=
  ∀ r ∈ opcodeRows, ∀ w v : CommandWord, r.owns w = true → w &&& r.reads = v &&& r.reads → decode w = decode v

/-- R61: the layout of the 208 bits, as the fields of any word and as the number of a packed one. -/
def Obligations.CommandWordLayout : Prop :=
  (∀ w : CommandWord,
    w.op.toNat = w.toNat % 2 ^ 4 ∧
    w.f0.toNat = w.toNat / 2 ^ 4 % 2 ∧
    w.f1.toNat = w.toNat / 2 ^ 5 % 2 ∧
    w.a.toNat = w.toNat / 2 ^ 8 % 2 ^ 8 ∧
    w.x.toNat = w.toNat / 2 ^ 16 % 2 ^ 64 ∧
    w.y.toNat = w.toNat / 2 ^ 80 % 2 ^ 64 ∧
    w.z.toNat = w.toNat / 2 ^ 144 % 2 ^ 64) ∧
  ∀ (op : BitVec 4) (f0 f1 : Bool) (a : Byte) (x y z : Word),
    (CommandWord.pack op f0 f1 a x y z).toNat =
      op.toNat + 16 * f0.toNat + 32 * f1.toNat + 2 ^ 8 * a.toNat + 2 ^ 16 * x.toNat + 2 ^ 80 * y.toNat
        + 2 ^ 144 * z.toNat

/-- R66: the layout of the 74 bits of a response record with the numbers of `code`, and that every command ends with one
record whose `cause` is 0 when `code = 0` and whose `len` and `data` are 0 when it is not. -/
def Obligations.ResponseRecordLayout : Prop :=
  (RspCode.bits .ok = 0 ∧ RspCode.bits .invalidArgument = 1 ∧ RspCode.bits .nullArgument = 2 ∧
    RspCode.bits .illegalCommand = 3) ∧
  (∀ r : Response,
    r.bits.toNat = r.code.bits.toNat + 4 * r.cause.bits.toNat + 64 * r.len.toNat + 1024 * r.data.toNat) ∧
  ∀ (i : Instr) (s : State), ∃ t r, exec i s = .next t ∧ t.rsp = some r ∧
    (r.code = .ok → r.cause.bits = 0) ∧ (r.code ≠ .ok → r.len = 0 ∧ r.data = 0)

/-! ## Steps, ports and the host -/

/-- A command presented to an accepting port runs: the step is `exec` of the command its word decodes to, with the word
taken off the command port (R60). -/
def Obligations.StepRunsDecodedCommand : Prop :=
  ∀ (s : State) (w : CommandWord) (ps : List Presentation) (i : Instr),
    s.presented = ⟨w, false⟩ :: ps → s.rsp = none → decode w = i → i.wellFormed = true →
    step s = exec i { s with presented := ps }

/-- The model's own entry (notes/assumptions/4): a table word placed by `withFetchWord` is what the very next step runs. -/
def Obligations.FetchWordRunsNext : Prop :=
  ∀ (s : State) (nbits w : Nat) (i : Instr), nbits ≤ 208 → decodeTableWord nbits w = some i →
    step (s.withFetchWord nbits w) = exec i { s with rsp := none }

/-- R60 and R166: every command in every state, and every step, answers a next state. There is no fault, no stuck state
and no refusal. -/
def Obligations.EveryStepCompletes : Prop :=
  (∀ (i : Instr) (s : State), ∃ t, exec i s = .next t) ∧ ∀ s : State, ∃ t, step s = .next t

/-- R60, R171, R175, R183, U8, where no command is accepted (nothing is presented, or a response waits): with no move to come
nothing changes; a word the host presents, to be cut short by reset or not, waits on the command port, and nothing else
changes; taking a response empties
the response port, and nothing else changes. While a response waits, no word that is presented is accepted or lost. That
the host is a list of moves, that a word presented stands behind those already presented, and that a reset leaves the
words presented are the model's reading (notes/assumptions/4, DESIGN CHOICE; 6 and 11, DEDUCED). -/
def Obligations.PortWaitsForTheHost : Prop :=
  (∀ s : State, s.presented = [] ∨ s.rsp ≠ none → s.host = [] → step s = .next s) ∧
  (∀ (s : State) (w : CommandWord) (rest : List HostMove),
    s.presented = [] ∨ s.rsp ≠ none → s.host = .command w :: rest →
    step s = .next { s with presented := s.presented ++ [⟨w, false⟩], host := rest }) ∧
  (∀ (s : State) (w : CommandWord) (rest : List HostMove),
    s.presented = [] ∨ s.rsp ≠ none → s.host = .resetDuring w :: rest →
    step s = .next { s with presented := s.presented ++ [⟨w, true⟩], host := rest }) ∧
  (∀ (s : State) (rest : List HostMove), s.presented = [] ∨ s.rsp ≠ none → s.host = .take :: rest →
    step s = .next { s with rsp := none, host := rest }) ∧
  ∀ (s : State) (r : Response), s.rsp = some r →
    ∃ t l, step s = .next t ∧ t.presented = s.presented ++ l ∧ (t.rsp = some r ∨ t.rsp = none)

/-- R175, R183, U8: a command presented while a response waits is not lost, it is not yet accepted. In every state in
which a word is presented and the host is still to take a response or to apply reset, the word is accepted after at most
as many steps as the host has moves to come, and it is then the command that runs. That a word presented survives a reset
(R170 does not speak of it) and that other words stand behind it in order are the model's reading (notes/assumptions/11
and 6, DEDUCED; the host's moves as a list: notes/assumptions/4, DESIGN CHOICE). -/
def Obligations.WaitingCommandIsAccepted : Prop :=
  ∀ (s : State) (w : CommandWord) (ps : List Presentation),
    s.presented = ⟨w, false⟩ :: ps → .take ∈ s.host ∨ .reset ∈ s.host →
    ∃ k u ps', k ≤ s.host.length ∧ Sys2Proof.core.run k s = .next u ∧ u.rsp = none ∧
      u.presented = ⟨w, false⟩ :: ps' ∧ step u = exec (decode w) { u with presented := ps' }

/-- R60: an accepted command leaves exactly its own response on the port, and the port accepts again once the host has
taken it. -/
def Obligations.OneResponsePerCommand : Prop :=
  ∀ (s : State) (w : CommandWord) (ps : List Presentation) (rest : List HostMove),
    s.presented = ⟨w, false⟩ :: ps → s.rsp = none → s.host = .take :: rest →
    ∃ t u r, step s = .next t ∧ t.rsp = some r ∧ t.accepting = false ∧ t.presented = ps ∧ t.host = .take :: rest ∧
      step t = .next u ∧ u.accepting = true ∧ u.presented = ps ∧ u.host = rest ∧ u.ps = t.ps ∧ u.eng = t.eng ∧
      u.msg = t.msg ∧ u.config = t.config

/-- R41, R183: a byte the host writes to MSG reads back, every other byte of MSG reads as before, MSG keeps its canonical
form, and nothing of the block changes. That an address with bits above `AW` lands at its low `AW` bits is the model's
choice (notes/assumptions/13: the spec does not say what a host presents there). -/
def Obligations.HostWriteReadsBack : Prop :=
  ∀ (s : State) (a : Word) (b : Byte) (rest : List HostMove),
    s.msg.Fits s.config → s.presented = [] ∨ s.rsp ≠ none → s.host = .write a b :: rest →
    ∃ t, step s = .next t ∧ t.msg.read (a.toNat % 2 ^ s.config.addrBits) = b ∧
      (∀ c, c ≠ a.toNat % 2 ^ s.config.addrBits → t.msg.read c = s.msg.read c) ∧
      t.msg.Fits t.config ∧ t.ps = s.ps ∧ t.eng = s.eng ∧ t.presented = s.presented ∧ t.rsp = s.rsp ∧
      t.config = s.config ∧ t.reads = s.reads ∧ t.host = rest

/-- R170: reset clears both valid bits, empties the response port and makes the command port accept; and it is the only
way a valid bit goes from 1 to 0. That MSG, the open parameters and a word presented and not yet accepted are as before
is the model's reading (notes/assumptions/11, DEDUCED: MSG and the presented word are the host's, R41 and R175). -/
def Obligations.ResetClearsValidBits : Prop :=
  (∀ (s : State) (rest : List HostMove), s.presented = [] ∨ s.rsp ≠ none → s.host = .reset :: rest →
    ∃ t, step s = .next t ∧ t.psValid = false ∧ t.engValid = false ∧ t.rsp = none ∧ t.accepting = true ∧
      t.msg = s.msg ∧ t.config = s.config ∧ t.presented = s.presented ∧ t.host = rest) ∧
  ∀ s t : State, step s = .next t →
    (s.psValid = true ∧ t.psValid = false) ∨ (s.engValid = true ∧ t.engValid = false) → s.resetsNext = true

/-- R171: a command cut short by reset after its acceptance has no response and no effect but the reset's: the step leaves
what a reset with no command leaves. That the words presented behind it stay is the model's reading (notes/assumptions/11,
DEDUCED; the words behind: notes/assumptions/6, DEDUCED), and makes this statement a derived one. -/
def Obligations.ResetDuringCommandIsReset : Prop :=
  ∀ (s : State) (w : CommandWord) (ps : List Presentation), s.presented = ⟨w, true⟩ :: ps → s.rsp = none →
    ∃ t, step s = .next t ∧
      step { s with presented := [], host := .reset :: s.host } = .next { t with presented := [] } ∧
      t.presented = ps ∧ t.psValid = false ∧ t.engValid = false ∧ t.rsp = none ∧ t.accepting = true

/-- R30, R170: the state after reset has both valid bits 0, no response pending and an accepting command port, so RDST
answers 0 there (R141). The open parameters, MSG and the host's moves are the model's choice (notes/assumptions/2, 3,
4) and are not stated here. -/
def Obligations.ResetStateHoldsNothing : Prop :=
  State.reset.ps = none ∧ State.reset.eng = none ∧ State.reset.rsp = none ∧ State.reset.accepting = true ∧
  exec .rdst State.reset = .next (State.reset.answered (Response.success 8 0) [])

/-! ## Invariants -/

/-- R29 with the canonical form of MSG and the shape of responses: every step keeps the invariant. -/
def Obligations.StepKeepsInvariant : Prop :=
  ∀ s t : State, s.Inv → step s = .next t → t.Inv

/-- The invariant holds right after reset. -/
def Obligations.ResetMeetsInvariant : Prop := State.reset.Inv

/-! ## What commands write, read and leave alone -/

/-- What an answer is: the response port and the trace of the read port, and nothing else. -/
def Obligations.AnswerChangesPortOnly : Prop :=
  ∀ (s : State) (r : Response) (l : List Nat),
    (s.answered r l).ps = s.ps ∧ (s.answered r l).eng = s.eng ∧ (s.answered r l).msg = s.msg ∧
    (s.answered r l).config = s.config ∧ (s.answered r l).host = s.host ∧
    (s.answered r l).presented = s.presented ∧ (s.answered r l).rsp = some r ∧ (s.answered r l).reads = l

/-- The frame of every command (R31, R40): the parameters, the command port, the host's moves and every byte of MSG are as before; `PS`
changes under CFG only and `ENG` under BUILD only. -/
def Obligations.CommandFrame : Prop :=
  ∀ (i : Instr) (s t : State), exec i s = .next t →
    t.config = s.config ∧ t.presented = s.presented ∧ t.host = s.host ∧ (∀ a, t.msg.read a = s.msg.read a) ∧ t.msg = s.msg ∧
    ((∀ width poly init xorout refin refout, i ≠ .cfg width poly init xorout refin refout) → t.ps = s.ps) ∧
    (i ≠ .build → t.eng = s.eng)

/-- R21, R22, R24 over steps: `PS` changes only by an accepted CFG word or a reset, `ENG` only by an accepted BUILD word
or a reset. -/
def Obligations.OnlyCfgBuildAndResetChangeSlots : Prop :=
  ∀ s t : State, step s = .next t →
    (t.ps ≠ s.ps → s.resetsNext = true ∨ ∃ w ps, s.presented = ⟨w, false⟩ :: ps ∧ s.rsp = none ∧ w.op = 1) ∧
    (t.eng ≠ s.eng → s.resetsNext = true ∨ ∃ w ps, s.presented = ⟨w, false⟩ :: ps ∧ s.rsp = none ∧ w.op = 2)

/-- R156: a command that raises writes no state element, reads no byte of MSG, and answers `respond(code, cause, 0, 0)`;
and the step in which the host takes that response leaves the slots as they are and the block accepting, so that the next
word presented is the next command to run. -/
def Obligations.RaisingHasNoEffect : Prop :=
  ∀ (i : Instr) (s t : State) (r : Response), exec i s = .next t → t.rsp = some r → r.code ≠ .ok →
    t.ps = s.ps ∧ t.eng = s.eng ∧ t.msg = s.msg ∧ t.config = s.config ∧ t.presented = s.presented ∧
    t.host = s.host ∧ t.reads = [] ∧ r.len = 0 ∧ r.data = 0 ∧ r.code = r.cause.code ∧
    ∀ rest, s.host = .take :: rest → ∃ u, step t = .next u ∧ u.ps = s.ps ∧ u.eng = s.eng ∧ u.msg = s.msg ∧
      u.accepting = true ∧
      ∀ w ps, s.presented = ⟨w, false⟩ :: ps → step u = exec (decode w) { u with presented := ps }

/-- R157: the command after a failed one runs exactly as if the failed one had never been sent. -/
def Obligations.FailedCommandLeavesNoTrace : Prop :=
  ∀ (i j : Instr) (s t : State) (r : Response), exec i s = .next t → t.rsp = some r → r.code ≠ .ok →
    exec j t = exec j s

/-- R31, R121, R131, R163: a command other than CFG and BUILD leaves nothing behind that a later command reads, so it may
be repeated and may stand anywhere between the commands of other hosts. -/
def Obligations.ReadingCommandLeavesNoTrace : Prop :=
  ∀ (i j : Instr) (s t : State), i.opcode ≠ 1 → i.opcode ≠ 2 → i.wellFormed = true → exec i s = .next t →
    exec j t = exec j s

/-- R25, R27: a command depends on `PS`, `ENG`, its word and MSG only, never on what stands on the ports. -/
def Obligations.PortsDoNotInfluenceCommands : Prop :=
  ∀ (i : Instr) (s : State) (q : List Presentation) (r : Option Response) (l : List Nat) (h : List HostMove),
    ∃ t, exec i s = .next t ∧
      exec i { s with presented := q, rsp := r, reads := l, host := h } = .next { t with presented := q, host := h }

/-- R40: a command other than COMPN and COMPB reads no byte of MSG, and its answer is the same whatever MSG holds. -/
def Obligations.OnlyComputeReadsMessage : Prop :=
  ∀ (i : Instr) (s : State) (m : Memory),
    (∀ p base len, i ≠ .compn p base len) → (∀ p base len, i ≠ .compb p base len) →
    ∃ t, exec i s = .next t ∧ t.reads = [] ∧ exec i { s with msg := m } = .next { t with msg := m }

/-- R31: COMPN and COMPB read neither `PS` nor `ENG.poly`: the polynomial acts only through the table. -/
def Obligations.ComputeIgnoresPsAndPoly : Prop :=
  ∀ (s : State) (e : Engine) (q : Option ParamSet) (poly : Word) (p : Bool) (base len : Word) (i : Instr),
    s.eng = some e → i = .compn p base len ∨ i = .compb p base len →
    ∃ t t', exec i s = .next t ∧
      exec i { s with ps := q, eng := some { e with params := { e.params with poly := poly } } } = .next t' ∧
      t'.rsp = t.rsp ∧ t'.reads = t.reads

/-- R150: the complete list of the conditions under which a command does not succeed, each with its exact condition. -/
def Obligations.ErrorConditionsAreComplete : Prop :=
  ∀ (i : Instr) (s t : State) (r : Response), exec i s = .next t → t.rsp = some r →
    r.code = r.cause.code ∧
    (r.cause = .widthRange ↔ ∃ w p n x ri ro, i = .cfg w p n x ri ro ∧ (w.toNat < 2 ∨ 64 < w.toNat)) ∧
    (r.cause = .polyRange ↔ ∃ w p n x ri ro, i = .cfg w p n x ri ro ∧ 2 ≤ w.toNat ∧ w.toNat ≤ 64 ∧
      p > mask w.toNat) ∧
    (r.cause = .initRange ↔ ∃ w p n x ri ro, i = .cfg w p n x ri ro ∧ 2 ≤ w.toNat ∧ w.toNat ≤ 64 ∧
      p ≤ mask w.toNat ∧ n > mask w.toNat) ∧
    (r.cause = .xoroutRange ↔ ∃ w p n x ri ro, i = .cfg w p n x ri ro ∧ 2 ≤ w.toNat ∧ w.toNat ≤ 64 ∧
      p ≤ mask w.toNat ∧ n ≤ mask w.toNat ∧ x > mask w.toNat) ∧
    (r.cause = .paramsAbsent ↔ s.psValid = false ∧ (i = .build ∨ ∃ f, i = .rdprm .ps f)) ∧
    (r.cause = .dataAbsent ↔ s.engValid = true ∧
      ∃ base len, i = .compn false base len ∨ i = .compb false base len) ∧
    (r.cause = .engineAbsent ↔ s.engValid = false ∧
      ((∃ p base len, i = .compn p base len ∨ i = .compb p base len) ∨ (∃ idx, i = .rdtbl idx) ∨
        ∃ f, i = .rdprm .eng f)) ∧
    (r.cause = .reservedOp ↔ ∃ op, i = .reserved op)

/-- R67: the number of every cause and the code it goes with. -/
def Obligations.CauseNumbersAndCodes : Prop :=
  (Cause.bits .none = 0 ∧ Cause.code .none = .ok) ∧
  (Cause.bits .widthRange = 1 ∧ Cause.code .widthRange = .invalidArgument) ∧
  (Cause.bits .polyRange = 2 ∧ Cause.code .polyRange = .invalidArgument) ∧
  (Cause.bits .initRange = 3 ∧ Cause.code .initRange = .invalidArgument) ∧
  (Cause.bits .xoroutRange = 4 ∧ Cause.code .xoroutRange = .invalidArgument) ∧
  (Cause.bits .paramsAbsent = 5 ∧ Cause.code .paramsAbsent = .nullArgument) ∧
  (Cause.bits .dataAbsent = 6 ∧ Cause.code .dataAbsent = .nullArgument) ∧
  (Cause.bits .engineAbsent = 7 ∧ Cause.code .engineAbsent = .nullArgument) ∧
  (Cause.bits .reservedOp = 8 ∧ Cause.code .reservedOp = .illegalCommand)

/-! ## CFG -/

/-- R84 and R86: every parameter set with a width in range and three values inside the mask is accepted, whatever its
polynomial's low bit and its two flags; all of `PS` is written as presented, and nothing but `PS`. -/
def Obligations.CfgAcceptsEveryValidSet : Prop :=
  ∀ (width : Byte) (poly init xorout : Word) (refin refout : Bool) (s : State),
    2 ≤ width.toNat → width.toNat ≤ 64 → poly ≤ mask width.toNat → init ≤ mask width.toNat →
    xorout ≤ mask width.toNat →
    ∃ p t, exec (.cfg width poly init xorout refin refout) s = .next t ∧
      t = { s with ps := some p, rsp := some (Response.success 0 0), reads := [] } ∧
      p.width.toNat = width.toNat ∧ p.poly = poly ∧ p.init = init ∧ p.xorout = xorout ∧ p.refin = refin ∧
      p.refout = refout ∧ t.psValid = true

/-- R82: a width below 2 or above 64 fails with InvalidArgument/WIDTH_RANGE whatever the other operands, and a width from
2 to 64 never does. -/
def Obligations.CfgChecksWidth : Prop :=
  ∀ (width : Byte) (poly init xorout : Word) (refin refout : Bool) (s : State),
    (width.toNat < 2 ∨ 64 < width.toNat →
      exec (.cfg width poly init xorout refin refout) s = .next (s.answered (Response.error .widthRange) []) ∧
        (Response.error .widthRange).code = .invalidArgument) ∧
    (2 ≤ width.toNat → width.toNat ≤ 64 →
      ∃ t r, exec (.cfg width poly init xorout refin refout) s = .next t ∧ t.rsp = some r ∧
        r.cause ≠ .widthRange)

/-- R83: with the width in range the command fails with InvalidArgument exactly when one of the three values exceeds the
mask. That a value exceeds the mask exactly when it has a bit at or above the width is what R83 marks as derived from
R81, and makes this statement a derived one; at width 64 no value can exceed it. -/
def Obligations.CfgChecksValues : Prop :=
  (∀ (width : Byte) (poly init xorout : Word) (refin refout : Bool) (s : State),
    2 ≤ width.toNat → width.toNat ≤ 64 →
    ∃ t r, exec (.cfg width poly init xorout refin refout) s = .next t ∧ t.rsp = some r ∧
      (r.code = .invalidArgument ↔
        poly > mask width.toNat ∨ init > mask width.toNat ∨ xorout > mask width.toNat) ∧
      (r.code ≠ .invalidArgument → r.code = .ok)) ∧
  (∀ (w : Nat) (v : Word), 2 ≤ w → w ≤ 64 → (v > mask w ↔ ∃ k, w ≤ k ∧ k ≤ 63 ∧ v.getLsbD k = true)) ∧
  ∀ v : Word, ¬ v > mask 64

/-- R85 and R87: a CFG that fails changes nothing and reports the first check that fails, in the order width,
polynomial, initial value, xor-out value. -/
def Obligations.CfgReportsFirstFailure : Prop :=
  ∀ (width : Byte) (poly init xorout : Word) (refin refout : Bool) (s : State),
    (width.toNat < 2 ∨ 64 < width.toNat →
      exec (.cfg width poly init xorout refin refout) s = .next (s.answered (Response.error .widthRange) [])) ∧
    (2 ≤ width.toNat → width.toNat ≤ 64 →
      (poly > mask width.toNat →
        exec (.cfg width poly init xorout refin refout) s = .next (s.answered (Response.error .polyRange) [])) ∧
      (poly ≤ mask width.toNat → init > mask width.toNat →
        exec (.cfg width poly init xorout refin refout) s = .next (s.answered (Response.error .initRange) [])) ∧
      (poly ≤ mask width.toNat → init ≤ mask width.toNat → xorout > mask width.toNat →
        exec (.cfg width poly init xorout refin refout) s = .next (s.answered (Response.error .xoroutRange) []))) ∧
    (Response.error .widthRange).code = .invalidArgument ∧ (Response.error .polyRange).code = .invalidArgument ∧
    (Response.error .initRange).code = .invalidArgument ∧ (Response.error .xoroutRange).code = .invalidArgument

/-- R88, R179: a CFG, successful or not, leaves the engine in place, and the commands that use the engine answer as
before it until a BUILD succeeds. -/
def Obligations.CfgDoesNotRebuild : Prop :=
  ∀ (width : Byte) (poly init xorout : Word) (refin refout : Bool) (s t : State) (i : Instr),
    exec (.cfg width poly init xorout refin refout) s = .next t →
    (∃ p base len, i = .compn p base len ∨ i = .compb p base len) ∨ (∃ idx, i = .rdtbl idx) ∨
      (∃ f, i = .rdprm .eng f) →
    t.eng = s.eng ∧ ∃ u v, exec i s = .next u ∧ exec i t = .next v ∧ v.rsp = u.rsp

/-- R81: `mask(w)` is `2^w − 1`, ones below bit `w` and zeros from it up. -/
def Obligations.MaskIsOnesBelowWidth : Prop :=
  ∀ w : Nat, 1 ≤ w → w ≤ 64 →
    (mask w).toNat = 2 ^ w - 1 ∧
    (∀ i, i < w → (mask w).getLsbD i = true) ∧ (∀ i, w ≤ i → i ≤ 63 → (mask w).getLsbD i = false)

/-! ## The bit reflection unit -/

/-- R90: the definition of `reflect`, bit by bit. That bits `n` and above of the input do not matter is what R90 marks as
derived from the definition, and makes this statement a derived one. -/
def Obligations.ReflectReversesBits : Prop :=
  ∀ (v : Word) (n : Nat), 1 ≤ n → n ≤ 64 →
    (∀ k, k < n → (reflect v n).getLsbD (n - 1 - k) = v.getLsbD k) ∧
    (∀ j, n ≤ j → j ≤ 63 → (reflect v n).getLsbD j = false) ∧
    reflect v n = reflect (v &&& mask n) n

/-- R92: the five properties of `reflect`, which the spec derives from R90. -/
def Obligations.ReflectLaws : Prop :=
  ∀ (v u : Word) (n : Nat), 1 ≤ n → n ≤ 64 →
    reflect v n ≤ mask n ∧
    reflect (reflect v n) n = v &&& mask n ∧
    reflect (v ^^^ u) n = reflect v n ^^^ reflect u n ∧ reflect 0 n = 0 ∧ reflect (mask n) n = mask n ∧
    reflect 1 n = BitVec.ofNat 64 (2 ^ (n - 1)) ∧ reflect (BitVec.ofNat 64 (2 ^ (n - 1))) n = 1 ∧
    (v ≤ mask n → reflect (v >>> 1) n = (reflect v n <<< 1) &&& mask n)

/-! ## BUILD, the table and RDTBL -/

/-- R100 and R101: BUILD with a parameter set writes the whole engine: the copy of the parameters, `TableEntry` at every
index, the valid bit; and nothing else. Without one it raises and changes nothing. -/
def Obligations.BuildConstructsEngine : Prop :=
  (∀ (s : State) (p : ParamSet), s.ps = some p →
    ∃ e t, exec .build s = .next t ∧
      t = { s with eng := some e, rsp := some (Response.success 0 0), reads := [] } ∧
      e.params = p ∧ (∀ i : Byte, e.lookup i = tableEntry s.config.narrowRule p.width.toNat p.poly p.refin i) ∧
      t.engValid = true ∧ t.ps = some p) ∧
  ∀ s : State, s.ps = none → exec .build s = .next (s.answered (Response.error .paramsAbsent) [])

/-- R110: rebuilding from an unchanged `PS` reproduces the same engine. -/
def Obligations.RebuildReproducesEngine : Prop :=
  ∀ s t : State, exec .build s = .next t → exec .build t = .next t

/-- R102 to R105: the table entry is the bit-serial `Plain` of its index, both reflected when `refin`, at every width
from 2 to 64 (the rule for widths 2 to 7 is the spec's decision D11, parameter NARROW_WIDTH_RULE). -/
def Obligations.TableEntryEqualsPlain : Prop :=
  ∀ (rule : NarrowRule) (w : Nat) (poly : Word) (i : Byte), 2 ≤ w → w ≤ 64 → poly ≤ mask w →
    tableEntry rule w poly false i = plain w poly i ∧
    tableEntry rule w poly true i = reflect (plain w poly ((reflect (i.setWidth 64) 8).setWidth 8)) w

/-- R109: the properties of the table, which the spec derives from R105. -/
def Obligations.TableProperties : Prop :=
  ∀ (rule : NarrowRule) (w : Nat) (poly : Word) (refin : Bool) (i j : Byte), 2 ≤ w → w ≤ 64 → poly ≤ mask w →
    tableEntry rule w poly refin 0 = 0 ∧
    tableEntry rule w poly refin (i ^^^ j) = tableEntry rule w poly refin i ^^^ tableEntry rule w poly refin j ∧
    tableEntry rule w poly false 1 = poly ∧ tableEntry rule w poly true 0x80 = reflect poly w ∧
    tableEntry rule w poly refin i ≤ mask w

/-- R106: for widths 8 to 64, holding the register of step 3 in exactly `w` bits gives the same table entry. -/
def Obligations.WidthBitRegisterIsEnough : Prop :=
  ∀ (rule : NarrowRule) (w : Nat) (poly : Word) (refin : Bool) (i : Byte), 8 ≤ w → w ≤ 64 → poly ≤ mask w →
    tableEntry rule w poly refin i =
      reflectIf refin
        (Nat.repeat
          (fun r => if r.getLsbD (w - 1) then ((r <<< 1) &&& mask w) ^^^ poly else (r <<< 1) &&& mask w) 8
          (inByte refin i <<< (w - 8)))
        w &&& mask w

/-- R108: RDTBL answers the entry at its index, whose bits from the engine's width up are 0, or raises without an
engine. -/
def Obligations.RdtblAnswersEntry : Prop :=
  (∀ (s : State) (e : Engine) (idx : Byte), s.eng = some e →
    exec (.rdtbl idx) s = .next (s.answered (Response.success 8 (e.lookup idx)) [])) ∧
  (∀ (s : State) (idx : Byte), s.eng = none →
    exec (.rdtbl idx) s = .next (s.answered (Response.error .engineAbsent) [])) ∧
  ∀ (s : State) (e : Engine) (idx : Byte) (k : Nat), s.Inv → s.eng = some e → e.params.width.toNat ≤ k → k ≤ 63 →
    (e.lookup idx).getLsbD k = false

/-! ## COMPN and COMPB -/

/-- R120: without an engine both commands raise ENGINE_ABSENT, with or without data; with one and `P = 0` they raise
DATA_ABSENT; no byte is read in either case. -/
def Obligations.ComputeChecksInOrder : Prop :=
  (∀ (s : State) (p : Bool) (base len : Word), s.eng = none →
    exec (.compn p base len) s = .next (s.answered (Response.error .engineAbsent) []) ∧
    exec (.compb p base len) s = .next (s.answered (Response.error .engineAbsent) [])) ∧
  ∀ (s : State) (e : Engine) (base len : Word), s.eng = some e →
    exec (.compn false base len) s = .next (s.answered (Response.error .dataAbsent) []) ∧
    exec (.compb false base len) s = .next (s.answered (Response.error .dataAbsent) [])

/-- R122 to R127: the computation over a message, byte by byte. -/
def Obligations.CheckFollowsByteSteps : Prop :=
  ∀ (rule : NarrowRule) (e : Engine) (data : List Byte) (b : Byte) (crc : Word),
    (runRegister rule e [] =
      if e.params.refin then reflect e.params.init e.params.width.toNat else e.params.init) ∧
    (runRegister rule e data = crc →
      (e.params.refin = true →
        runRegister rule e (data ++ [b]) =
          (e.lookup (BitVec.ofNat 8 ((crc ^^^ b.setWidth 64) &&& 0xFF).toNat) ^^^ (crc >>> 8)) &&& mask e.params.width.toNat) ∧
      (e.params.refin = false → 8 ≤ e.params.width.toNat →
        runRegister rule e (data ++ [b]) =
          (e.lookup (BitVec.ofNat 8 (((crc >>> (e.params.width.toNat - 8)) ^^^ b.setWidth 64) &&& 0xFF).toNat)
            ^^^ (crc <<< 8)) &&& mask e.params.width.toNat) ∧
      (e.params.refin = false → e.params.width.toNat ≤ 7 →
        runRegister rule e (data ++ [b]) =
          (e.lookup (BitVec.ofNat 8 (((crc <<< (8 - e.params.width.toNat)) ^^^ b.setWidth 64) &&& 0xFF).toNat)
            ^^^ (crc <<< 8)) &&& mask e.params.width.toNat) ∧
      (e.params.refin ≠ e.params.refout →
        e.check rule data = reflect crc e.params.width.toNat ^^^ e.params.xorout) ∧
      (e.params.refin = e.params.refout → e.check rule data = crc ^^^ e.params.xorout))

/-- R43 and R46: the message is read at `(base + k) mod 2^AW` for `k` from 0 to `len − 1`, each byte exactly once, in
ascending order, with `base` the low `AW` bits of the operand. -/
def Obligations.MessageIsReadOnceInOrder : Prop :=
  ∀ (s : State) (e : Engine) (base len : Word) (i : Instr), s.eng = some e →
    i = .compn true base len ∨ i = .compb true base len →
    ∃ t, exec i s = .next t ∧ t.reads.length = len.toNat ∧
      (∀ k, k < len.toNat →
        t.reads[k]? = some ((base.toNat % 2 ^ s.config.addrBits + k) % 2 ^ s.config.addrBits)) ∧
      message s base len = t.reads.map s.msg.read

/-- R62: the bits of `x` above the `AW` address bits have no effect on COMPN and COMPB. -/
def Obligations.BaseAboveAddressBitsIgnored : Prop :=
  ∀ (s : State) (p : Bool) (base base' len : Word),
    base.toNat % 2 ^ s.config.addrBits = base'.toNat % 2 ^ s.config.addrBits →
    exec (.compn p base len) s = exec (.compn p base' len) s ∧
    exec (.compb p base len) s = exec (.compb p base' len) s

/-- R129 and R130: with an engine and data present, COMPN answers the check value of the message with `len = 8` and COMPB
the same value with `len = L = (w + 7) >> 3`. `Engine.check` is what `CheckFollowsByteSteps` says. The
message is the bytes of MSG as it stands when the command is accepted, so the statement is one about a host that obeys
R176 (notes/assumptions/5, DEDUCED; U5). The addresses read are the subject of `MessageIsReadOnceInOrder`. -/
def Obligations.ComputeAnswersCheckValue : Prop :=
  ∀ (s : State) (e : Engine) (base len : Word), s.eng = some e → 2 ≤ e.params.width.toNat →
    e.params.width.toNat ≤ 64 →
    ∃ l L, L.toNat = (e.params.width.toNat + 7) / 8 ∧
      exec (.compn true base len) s =
        .next (s.answered (Response.success 8 (e.check s.config.narrowRule (message s base len))) l) ∧
      exec (.compb true base len) s =
        .next (s.answered (Response.success L (e.check s.config.narrowRule (message s base len))) l)

/-- R132: the two result forms agree. COMPB's byte array has exactly `ceil(width/8)` bytes, byte `j` is bits `8j+7..8j`
of the numeric result, its little-endian decoding is the numeric result, and the bytes of `data` above it are 0. -/
def Obligations.ResultFormsAgree : Prop :=
  ∀ (s : State) (e : Engine) (base len : Word), s.Inv → s.eng = some e →
    ∃ t u rn rb, exec (.compn true base len) s = .next t ∧ t.rsp = some rn ∧
      exec (.compb true base len) s = .next u ∧ u.rsp = some rb ∧
      rn.len = 8 ∧ rb.data = rn.data ∧ rb.bytes.length = (e.params.width.toNat + 7) / 8 ∧
      (∀ j, j < rb.bytes.length → rb.bytes[j]? = some (rn.data.extractLsb' (8 * j) 8)) ∧
      rn.data.toNat = ((List.range rb.bytes.length).map fun j => (rb.byte j).toNat * 2 ^ (8 * j)).sum ∧
      ∀ j, rb.bytes.length ≤ j → rb.byte j = 0

/-- R134 and the bound of R127: with a valid engine the running register stays inside the mask after every byte, and so
does the check value. -/
def Obligations.RegisterStaysInMask : Prop :=
  ∀ (rule : NarrowRule) (e : Engine) (data : List Byte), e.Valid rule →
    runRegister rule e data ≤ mask e.params.width.toNat ∧ e.check rule data ≤ mask e.params.width.toNat

/-- R128: with a valid engine the table method computes the bit-serial CRC, for every width from 2 to 64, all four flag
combinations and every message. -/
def Obligations.CheckEqualsBitSerial : Prop :=
  ∀ (rule : NarrowRule) (e : Engine) (data : List Byte), e.Valid rule → e.check rule data = serial e.params data

/-- R133: the check value of the empty message. -/
def Obligations.EmptyMessageCheckValue : Prop :=
  ∀ (s : State) (e : Engine) (base : Word), s.Inv → s.eng = some e →
    ∃ l, exec (.compn true base 0) s =
      .next (s.answered
        (Response.success 8
          ((if e.params.refout then reflect e.params.init e.params.width.toNat else e.params.init)
            ^^^ e.params.xorout)) l)

/-! ## NOP, RDST, RDPRM, reserved words -/

/-- R140: NOP answers OK with no result and changes nothing, in every state. -/
def Obligations.NopAnswersOk : Prop :=
  ∀ s : State, exec .nop s = .next (s.answered (Response.success 0 0) [])

/-- R141: RDST answers the two valid bits in every state; after reset 0, and 2 in no state of a run. -/
def Obligations.RdstAnswersValidBits : Prop :=
  ∀ s : State, ∃ data : Word, exec .rdst s = .next (s.answered (Response.success 8 data) []) ∧
    data.getLsbD 0 = s.psValid ∧ data.getLsbD 1 = s.engValid ∧
    (∀ k, 2 ≤ k → k ≤ 63 → data.getLsbD k = false) ∧ (s.Inv → data ≠ 2)

/-- R142: RDPRM answers the selected field of the bank's parameter set, CTRL with the width in bits 7:0, refin in bit 8
and refout in bit 9; an empty bank raises its own cause. -/
def Obligations.RdprmAnswersField : Prop :=
  (∀ (s : State) (b : Bank) (p : ParamSet),
    (b = .ps ∧ s.ps = some p) ∨ (b = .eng ∧ ∃ e, s.eng = some e ∧ e.params = p) →
    exec (.rdprm b .poly) s = .next (s.answered (Response.success 8 p.poly) []) ∧
    exec (.rdprm b .init) s = .next (s.answered (Response.success 8 p.init) []) ∧
    exec (.rdprm b .xorout) s = .next (s.answered (Response.success 8 p.xorout) []) ∧
    ∃ data : Word, exec (.rdprm b .ctrl) s = .next (s.answered (Response.success 8 data) []) ∧
      data.toNat = p.width.toNat + 2 ^ 8 * p.refin.toNat + 2 ^ 9 * p.refout.toNat) ∧
  (∀ (s : State) (f : ParamField), s.ps = none →
    exec (.rdprm .ps f) s = .next (s.answered (Response.error .paramsAbsent) [])) ∧
  ∀ (s : State) (f : ParamField), s.eng = none →
    exec (.rdprm .eng f) s = .next (s.answered (Response.error .engineAbsent) [])

/-- R155: every word with a reserved opcode, whatever its other bits, is answered IllegalCommand/RESERVED_OP and changes
nothing. -/
def Obligations.ReservedWordIsIllegal : Prop :=
  (∀ (w : CommandWord) (s : State), 8 ≤ w.op.toNat →
    exec (decode w) s = .next (s.answered (Response.error .reservedOp) [])) ∧
  (∀ (op : BitVec 4) (s : State), exec (.reserved op) s = .next (s.answered (Response.error .reservedOp) [])) ∧
  (Response.error .reservedOp).code = .illegalCommand

/-! ## The assembler -/

/-- R70: every line whose operands fit their fields assembles to the word of its mnemonic's opcode with its operands in
the fields of R62 and 0 in the others, and that word decodes to the command of the mnemonic with those operands (`null`
is `P = 0, x = 0, y = 0`); SETUP is CFG then BUILD; a width above 255, an index above 255 and a selector above 7 are not
encodable; and whatever line assembles, its words decode to the line's commands. -/
def Obligations.AssembledWordsDecode : Prop :=
  (AsmLine.nop.assemble = some [0] ∧ decode 0 = .nop) ∧
  (∀ (width : Byte) (poly init xorout : Word) (refin refout : Bool),
    let word := CommandWord.pack 1 refin refout width poly init xorout
    (AsmLine.cfg width.toNat poly.toNat init.toNat xorout.toNat refin.toNat refout.toNat).assemble = some [word] ∧
    (AsmLine.setup width.toNat poly.toNat init.toNat xorout.toNat refin.toNat refout.toNat).assemble = some [word, 2] ∧
    decode word = .cfg width poly init xorout refin refout) ∧
  (AsmLine.build.assemble = some [2] ∧ decode 2 = .build) ∧
  (∀ base len : Word,
    (AsmLine.compn base.toNat len.toNat).assemble = some [CommandWord.pack 3 true false 0 base len 0] ∧
    decode (CommandWord.pack 3 true false 0 base len 0) = .compn true base len ∧
    (AsmLine.compb base.toNat len.toNat).assemble = some [CommandWord.pack 4 true false 0 base len 0] ∧
    decode (CommandWord.pack 4 true false 0 base len 0) = .compb true base len) ∧
  (AsmLine.compnNull.assemble = some [3] ∧ decode 3 = .compn false 0 0) ∧
  (AsmLine.compbNull.assemble = some [4] ∧ decode 4 = .compb false 0 0) ∧
  (∀ idx : Byte, (AsmLine.rdtbl idx.toNat).assemble = some [CommandWord.pack 5 false false idx 0 0 0] ∧
    decode (CommandWord.pack 5 false false idx 0 0 0) = .rdtbl idx) ∧
  (AsmLine.rdst.assemble = some [6] ∧ decode 6 = .rdst) ∧
  ((AsmLine.rdprm 0).assemble = some [0x0007] ∧ decode 0x0007 = .rdprm .ps .poly) ∧
  ((AsmLine.rdprm 1).assemble = some [0x0107] ∧ decode 0x0107 = .rdprm .ps .init) ∧
  ((AsmLine.rdprm 2).assemble = some [0x0207] ∧ decode 0x0207 = .rdprm .ps .xorout) ∧
  ((AsmLine.rdprm 3).assemble = some [0x0307] ∧ decode 0x0307 = .rdprm .ps .ctrl) ∧
  ((AsmLine.rdprm 4).assemble = some [0x0407] ∧ decode 0x0407 = .rdprm .eng .poly) ∧
  ((AsmLine.rdprm 5).assemble = some [0x0507] ∧ decode 0x0507 = .rdprm .eng .init) ∧
  ((AsmLine.rdprm 6).assemble = some [0x0607] ∧ decode 0x0607 = .rdprm .eng .xorout) ∧
  ((AsmLine.rdprm 7).assemble = some [0x0707] ∧ decode 0x0707 = .rdprm .eng .ctrl) ∧
  (∀ width poly init xorout refin refout : Nat, 255 < width →
    (AsmLine.cfg width poly init xorout refin refout).assemble = none ∧
    (AsmLine.setup width poly init xorout refin refout).assemble = none) ∧
  (∀ idx, 255 < idx → (AsmLine.rdtbl idx).assemble = none) ∧
  (∀ sel, 7 < sel → (AsmLine.rdprm sel).assemble = none) ∧
  ∀ (l : AsmLine) (ws : List CommandWord), l.assemble = some ws → l.commands = some (ws.map decode)

/-- R70: a line of characters of each mnemonic (a sanity statement): decimal and hexadecimal numbers, both null forms, a
selector by number and by name, a comment; and a CFG line with a width above 255, which does not
assemble. Where blanks may stand is the model's choice (notes/assumptions/8). -/
def Obligations.LinesOfTextAssemble : Prop :=
  assembleText "NOP".toList = some [0] ∧
  assembleText "CFG  12, 0x80F, 0, 0, 0, 1  ; K5".toList = some [0x080F0C21] ∧
  assembleText "SETUP 8, 7, 0, 0, 0, 0".toList = some [0x070801, 0x02] ∧
  assembleText "BUILD".toList = some [0x02] ∧
  assembleText "COMPN 0x100, 9".toList = some [0x0000000000000000000000000000000900000000000001000013] ∧
  assembleText "COMPN null".toList = some [0x03] ∧
  assembleText "COMPB 0x100, 9".toList = some [0x0000000000000000000000000000000900000000000001000014] ∧
  assembleText "COMPB null".toList = some [0x04] ∧
  assembleText "RDTBL 255".toList = some [0xFF05] ∧
  assembleText "RDST".toList = some [0x06] ∧
  assembleText "RDPRM 3".toList = some [0x0307] ∧
  assembleText "RDPRM ENG.POLY".toList = some [0x0407] ∧
  assembleText "CFG 256, 0, 0, 0, 0, 0".toList = none
end

