-- ==== Sys2Proof/Laws/Reflect.lean ====
section
/-! SUPPORT. The bits of `mask` and of `reflect`, and what reflection does to XOR, to shifts and to itself. -/

namespace Sys2Proof.Machine

/-- Bit `i` of `mask(w)` (R81), for `i` in the register. -/
theorem getLsbD_mask {w i : Nat} (hw : w ≤ 64) : (mask w).getLsbD i = decide (i < w) := by
  simp only [mask, BitVec.getLsbD_ushiftRight, BitVec.getLsbD_allOnes]
  congr 1
  simp only [eq_iff_iff]
  omega

/-- Fitting the mask is having no bit at or above `w` (R83). -/
theorem le_mask_iff {w : Nat} (hw : w ≤ 64) (v : Word) : v ≤ mask w ↔ v &&& mask w = v := by
  have hm : (mask w).toNat = 2 ^ w - 1 := by
    have := Nat.pow_pos (a := 2) (n := w) (by decide)
    rw [mask, BitVec.toNat_ushiftRight, BitVec.toNat_allOnes, Nat.shiftRight_eq_div_pow]
    have h64 : 2 ^ 64 = 2 ^ w * 2 ^ (64 - w) := by rw [← pow_add]; congr 1; omega
    have h2 : 0 < 2 ^ (64 - w) := by positivity
    rw [h64, Nat.div_eq_of_lt_le]
    · have : (2 ^ w - 1) * 2 ^ (64 - w) = 2 ^ w * 2 ^ (64 - w) - 2 ^ (64 - w) := by
        rw [Nat.sub_mul, one_mul]
      omega
    · have : (2 ^ w - 1 + 1) * 2 ^ (64 - w) = 2 ^ w * 2 ^ (64 - w) := by
        congr 1; omega
      have h3 : 0 < 2 ^ w * 2 ^ (64 - w) := by positivity
      omega
  have hpos := Nat.pow_pos (a := 2) (n := w) (by decide)
  rw [BitVec.le_def, hm, ← BitVec.toNat_inj, BitVec.toNat_and, hm, Nat.and_two_pow_sub_one_eq_mod]
  constructor
  · intro h; exact Nat.mod_eq_of_lt (by omega)
  · intro h; have := Nat.mod_lt v.toNat hpos; omega

theorem and_mask_le {w : Nat} (hw : w ≤ 64) (v : Word) : v &&& mask w ≤ mask w := by
  rw [le_mask_iff hw, BitVec.and_assoc, BitVec.and_self]

theorem getLsbD_of_le_mask {w i : Nat} (hw : w ≤ 64) {v : Word} (h : v ≤ mask w) (hi : w ≤ i) :
    v.getLsbD i = false := by
  rw [← (le_mask_iff hw v).1 h, BitVec.getLsbD_and, getLsbD_mask hw]
  simp; omega

theorem zero_le_mask (w : Nat) : (0 : Word) ≤ mask w := by rw [BitVec.le_def]; simp

theorem xor_le_mask {w : Nat} (hw : w ≤ 64) {u v : Word} (hu : u ≤ mask w) (hv : v ≤ mask w) :
    u ^^^ v ≤ mask w := by
  rw [le_mask_iff hw] at *
  rw [← hu, ← hv]
  apply BitVec.eq_of_getLsbD_eq
  intro i _
  simp only [BitVec.getLsbD_and, BitVec.getLsbD_xor]
  cases (mask w).getLsbD i <;> simp

/-- The bits of `reflect` (R90), read from the result's side. -/
theorem getLsbD_reflect (v : Word) (n i : Nat) (hn : n ≤ 64) :
    (reflect v n).getLsbD i = (decide (i < n) && v.getLsbD (n - 1 - i)) := by
  induction n generalizing v with
  | zero => simp [reflect]
  | succ n ih =>
    simp only [reflect, BitVec.getLsbD_or, BitVec.getLsbD_shiftLeft, BitVec.getLsbD_and,
      ih _ (by omega), BitVec.getLsbD_ushiftRight]
    rcases Nat.lt_trichotomy i n with h | h | h
    · have : 1 + (n - 1 - i) = n - i := by omega
      simp [h, this, Nat.lt_succ_of_lt h]
    · subst h
      have : i < 64 := by omega
      simp [this]
    · have h1 : ¬ i < n := by omega
      have h2 : ¬ i < n + 1 := by omega
      have h3 : i - n ≠ 0 := by omega
      simp [h1, h2, h3]

theorem reflect_le_mask (v : Word) {n : Nat} (hn : n ≤ 64) : reflect v n ≤ mask n := by
  rw [le_mask_iff hn]
  apply BitVec.eq_of_getLsbD_eq
  intro i _
  rw [BitVec.getLsbD_and, getLsbD_mask hn, getLsbD_reflect _ _ _ hn]
  cases decide (i < n) <;> simp

theorem reflect_xor_bits (a b : Word) {n : Nat} (hn : n ≤ 64) :
    reflect (a ^^^ b) n = reflect a n ^^^ reflect b n := by
  apply BitVec.eq_of_getLsbD_eq
  intro i _
  simp only [BitVec.getLsbD_xor, getLsbD_reflect _ _ _ hn]
  cases decide (i < n) <;> simp

/-- A flag-controlled reflection stays in the mask. -/
theorem reflectIf_le_mask (f : Bool) {v : Word} {n : Nat} (hn : n ≤ 64) (hv : v ≤ mask n) :
    reflectIf f v n ≤ mask n := by
  cases f
  · exact hv
  · exact reflect_le_mask v hn

end Sys2Proof.Machine
end

