-- ==== Sys2Proof/Laws/Serial.lean ====
section
/-! SUPPORT. The bit-serial register is linear over XOR, and eight bits taken from its own top shift it by 8. These two
facts carry both equivalences of the spec: the table against `Plain` (R105) and `Check` against `Serial` (R128). -/

namespace Sys2Proof.Machine

variable {w : Nat} {poly : Word}

/-- The bits of one round. -/
theorem getLsbD_serialBit (hw : w ≤ 64) (r : Word) (b : Bool) (i : Nat) (hi : i < 64) :
    (serialBit w poly r b).getLsbD i =
      ((decide (1 ≤ i) && r.getLsbD (i - 1) && decide (i < w)) ^^
        ((r.getLsbD (w - 1) ^^ b) && poly.getLsbD i)) := by
  have h1 : (decide (i < 64) && !decide (i < 1)) = decide (1 ≤ i) := by
    rw [Bool.eq_iff_iff]; simp [hi]; omega
  unfold serialBit
  split
  · rename_i h
    simp only [BitVec.getLsbD_xor, BitVec.getLsbD_and, BitVec.getLsbD_shiftLeft, getLsbD_mask hw, h1, h,
      Bool.true_and]
  · rename_i h
    simp only [BitVec.getLsbD_and, BitVec.getLsbD_shiftLeft, getLsbD_mask hw, h1, Bool.eq_false_iff.2 h,
      Bool.false_and, Bool.xor_false]

theorem serialBit_le_mask (hw : w ≤ 64) (hp : poly ≤ mask w) (r : Word) (b : Bool) :
    serialBit w poly r b ≤ mask w := by
  unfold serialBit
  split
  · exact xor_le_mask hw (and_mask_le hw _) hp
  · exact and_mask_le hw _

/-- One round is linear in the register and the bit together. -/
theorem serialBit_xor (hw : w ≤ 64) (r r' : Word) (b b' : Bool) :
    serialBit w poly (r ^^^ r') (b ^^ b') = serialBit w poly r b ^^^ serialBit w poly r' b' := by
  apply BitVec.eq_of_getLsbD_eq
  intro i hi
  simp only [BitVec.getLsbD_xor, getLsbD_serialBit hw _ _ i hi]
  generalize decide (1 ≤ i) = p
  generalize decide (i < w) = q
  generalize r.getLsbD (i - 1) = x
  generalize r'.getLsbD (i - 1) = x'
  generalize r.getLsbD (w - 1) = y
  generalize r'.getLsbD (w - 1) = y'
  generalize poly.getLsbD i = z
  revert p q x x' y y' z b b'
  decide

/-- Any number of rounds is linear. -/
theorem foldl_serialBit_xor (hw : w ≤ 64) (l l' : List Bool) (hl : l.length = l'.length) (r r' : Word) :
    (List.zipWith xor l l').foldl (serialBit w poly) (r ^^^ r') =
      l.foldl (serialBit w poly) r ^^^ l'.foldl (serialBit w poly) r' := by
  induction l generalizing l' r r' with
  | nil => cases l' <;> simp_all
  | cons b l ih =>
    cases l' with
    | nil => simp at hl
    | cons b' l' =>
      simp only [List.zipWith_cons_cons, List.foldl_cons, serialBit_xor hw]
      exact ih l' (by simpa using hl) _ _

theorem foldl_serialBit_le_mask (hw : w ≤ 64) (hp : poly ≤ mask w) (l : List Bool) {r : Word} (hr : r ≤ mask w) :
    l.foldl (serialBit w poly) r ≤ mask w := by
  induction l generalizing r with
  | nil => exact hr
  | cons b l ih => exact ih (serialBit_le_mask hw hp r b)

@[simp] theorem length_byteBits (f : Bool) (b : Byte) : (byteBits f b).length = 8 := by
  cases f <;> simp [byteBits]

theorem byteBits_xor (f : Bool) (b b' : Byte) :
    byteBits f (b ^^^ b') = List.zipWith xor (byteBits f b) (byteBits f b') := by
  cases f <;> simp [byteBits, List.range_succ]

/-- A byte into the register is linear (R128). -/
theorem serialByte_xor (hw : w ≤ 64) (f : Bool) (r r' : Word) (b b' : Byte) :
    serialByte w poly f (r ^^^ r') (b ^^^ b') = serialByte w poly f r b ^^^ serialByte w poly f r' b' := by
  rw [serialByte, byteBits_xor, foldl_serialBit_xor hw _ _ (by simp)]
  rfl

theorem serialByte_le_mask (hw : w ≤ 64) (hp : poly ≤ mask w) (f : Bool) {r : Word} (hr : r ≤ mask w) (b : Byte) :
    serialByte w poly f r b ≤ mask w :=
  foldl_serialBit_le_mask hw hp _ hr

/-- The top eight bits of a `w`-bit register as a byte, bit `w−1` at bit 7; a narrower register fills it from the top
with zeros below (the shifts of R124 and R125). -/
def topByte (w : Nat) (r : Word) : Byte :=
  if 8 ≤ w then (r >>> (w - 8)).setWidth 8 else (r <<< (8 - w)).setWidth 8

theorem getLsbD_topByte (r : Word) (k : Nat) (hk : k < 8) :
    (topByte w r).getLsbD (7 - k) = (decide (k < w) && r.getLsbD (w - 1 - k)) := by
  unfold topByte
  split
  · rename_i h8
    have h1 : w - 8 + (7 - k) = w - 1 - k := by omega
    have h2 : k < w := by omega
    have h3 : 7 - k < 8 := by omega
    simp [h1, h2, h3]
  · rename_i h8
    rw [BitVec.getLsbD_setWidth, BitVec.getLsbD_shiftLeft]
    by_cases hkw : k < w
    · have h1 : 7 - k - (8 - w) = w - 1 - k := by omega
      have h2 : ¬ 7 - k < 8 - w := by omega
      have h3 : 7 - k < 8 := by omega
      have h4 : 7 - k < 64 := by omega
      simp [h1, h2, h3, h4, hkw]
    · have h2 : 7 - k < 8 - w := by omega
      simp [h2, hkw]

/-- A round whose bit is the register's own top bit only shifts. -/
theorem serialBit_top (r : Word) : serialBit w poly r (r.getLsbD (w - 1)) = (r <<< 1) &&& mask w := by
  simp [serialBit]

theorem shift_mask_shift (hw : w ≤ 64) (r : Word) (k : Nat) :
    (((r <<< k) &&& mask w) <<< 1) &&& mask w = (r <<< (k + 1)) &&& mask w := by
  apply BitVec.eq_of_getLsbD_eq
  intro i hi
  simp only [BitVec.getLsbD_and, BitVec.getLsbD_shiftLeft, getLsbD_mask hw]
  by_cases h1 : i < w
  · by_cases h2 : i < 1
    · have : i < k + 1 := by omega
      simp [h2, this]
    · have e : i - 1 - k = i - (k + 1) := by omega
      have h3 : i - 1 < w := by omega
      have h4 : i - 1 < 64 := by omega
      by_cases h5 : i - 1 < k
      · have : i < k + 1 := by omega
        simp [h5, this]
      · have : ¬ i < k + 1 := by omega
        simp [h1, h2, h3, h4, h5, this, hi, e]
  · simp [h1]

/-- Feeding the register's own top eight bits shifts it by 8 and XORs the polynomial never. -/
theorem serialByte_topByte (hw : w ≤ 64) (h0 : 1 ≤ w) {r : Word} (hr : r ≤ mask w) :
    serialByte w poly false r (topByte w r) = (r <<< 8) &&& mask w := by
  have key : ∀ n, n ≤ 8 →
      ((List.range n).map (fun k => (topByte w r).getLsbD (7 - k))).foldl (serialBit w poly) r =
        (r <<< n) &&& mask w := by
    intro n
    induction n with
    | zero => intro _; simpa using ((le_mask_iff hw r).1 hr).symm
    | succ n ih =>
      intro hn
      rw [List.range_succ, List.map_append, List.foldl_append, ih (by omega)]
      simp only [List.map_cons, List.map_nil, List.foldl_cons, List.foldl_nil]
      have hbit : (topByte w r).getLsbD (7 - n) = ((r <<< n) &&& mask w).getLsbD (w - 1) := by
        rw [getLsbD_topByte r n (by omega), BitVec.getLsbD_and, getLsbD_mask hw, BitVec.getLsbD_shiftLeft]
        have h1 : w - 1 < w := by omega
        have h2 : w - 1 < 64 := by omega
        by_cases h3 : n < w
        · have : ¬ w - 1 < n := by omega
          simp [h1, h2, h3, this]
        · have : w - 1 < n := by omega
          simp [h3, this]
      rw [hbit, serialBit_top, shift_mask_shift hw]
  simpa [serialByte, byteBits] using key 8 le_rfl

/-- One byte into the register is one entry of `Plain` and a shift by 8: the step of the table method (R124, R125). -/
theorem serialByte_eq_plain (hw : w ≤ 64) (h0 : 1 ≤ w) {r : Word} (hr : r ≤ mask w) (b : Byte) :
    serialByte w poly false r b = plain w poly (topByte w r ^^^ b) ^^^ ((r <<< 8) &&& mask w) := by
  rw [← serialByte_topByte (poly := poly) hw h0 hr, plain, ← serialByte_xor hw]
  congr 1
  · simp
  · rw [BitVec.xor_comm, ← BitVec.xor_assoc, BitVec.xor_self, BitVec.zero_xor]

end Sys2Proof.Machine
end

