-- ==== Sys2Proof/Laws/Table.lean ====
section
/-! SUPPORT. Table generation: the entry at an index, and the register after the eight rounds as a bit-serial register
(spec/42_table_lookup_engine.md R102 to R106). -/

namespace Sys2Proof.Machine

variable {w : Nat} {poly : Word}

/-! ## The table store -/

theorem buildTable_lookup (rule : NarrowRule) (p : ParamSet) (i : Byte) :
    (newEngine rule p).lookup i = tableEntry rule p.w p.poly p.refin i := by
  simp [newEngine, Engine.lookup, buildTable, ParamSet.w]

@[simp] theorem newEngine_params (rule : NarrowRule) (p : ParamSet) : (newEngine rule p).params = p := rfl

theorem tableEntry_le_mask (hw : w ≤ 64) (rule : NarrowRule) (refin : Bool) (i : Byte) :
    tableEntry rule w poly refin i ≤ mask w :=
  and_mask_le hw _

/-- The check of CFG that passes leaves values inside the mask (R83), whatever the order. -/
theorem mask_le_of_not_lt {m v : Word} (h : ¬ m < v) : v ≤ m := by
  rw [BitVec.lt_def] at h
  rw [BitVec.le_def]
  omega

/-! ## The rounds for `w ≥ 8` -/

/-- A round of R103 seen through the mask is a bit-serial round with bit 0: bits above `w−1` never come back (R106). -/
theorem wideRound_mask (hw : w ≤ 64) (h0 : 1 ≤ w) (hp : poly ≤ mask w) (r : Word) :
    wideRound w poly r &&& mask w = serialBit w poly (r &&& mask w) false := by
  apply BitVec.eq_of_getLsbD_eq
  intro i hi
  rw [getLsbD_serialBit hw _ _ i hi]
  have hr : ∀ j, (wideRound w poly r).getLsbD j =
      ((r <<< 1).getLsbD j ^^ (r.getLsbD (w - 1) && poly.getLsbD j)) := by
    intro j
    unfold wideRound
    split <;> simp_all
  have hlt : w - 1 < w := by omega
  simp only [BitVec.getLsbD_and, hr, getLsbD_mask hw, BitVec.getLsbD_shiftLeft, hlt, decide_true,
    Bool.and_true, Bool.xor_false]
  by_cases h : i < w
  · have h' : i - 1 < w := by omega
    rcases Nat.eq_zero_or_pos i with rfl | hpos
    · simp [h]
    · have h1 : ¬ i < 1 := by omega
      simp [h, h', h1, hi, Nat.one_le_iff_ne_zero, Nat.pos_iff_ne_zero.1 hpos]
  · simp [h, getLsbD_of_le_mask hw hp (Nat.le_of_not_lt h)]

theorem repeat_wideRound_mask (hw : w ≤ 64) (h0 : 1 ≤ w) (hp : poly ≤ mask w) (n : Nat) (r : Word) :
    Nat.repeat (wideRound w poly) n r &&& mask w =
      (List.replicate n false).foldl (serialBit w poly) (r &&& mask w) := by
  induction n with
  | zero => rfl
  | succ n ih =>
    rw [Nat.repeat, wideRound_mask hw h0 hp, ih, List.replicate_succ', List.foldl_append]
    rfl

/-- The bits of a byte moved to the top of a `w`-bit register (step 2 of R103). -/
theorem getLsbD_byteAtTop (hw : w ≤ 64) (h8 : 8 ≤ w) (b : Byte) (i : Nat) :
    ((b.setWidth 64 : Word) <<< (w - 8)).getLsbD i =
      (decide (i < w) && decide (w - 8 ≤ i) && b.getLsbD (i - (w - 8))) := by
  rw [BitVec.getLsbD_shiftLeft, BitVec.getLsbD_setWidth]
  by_cases h : i < w
  · have h1 : i < 64 := by omega
    have h2 : i - (w - 8) < 64 := by omega
    by_cases h3 : i < w - 8
    · have : ¬ w - 8 ≤ i := by omega
      simp [h3, this]
    · have : w - 8 ≤ i := by omega
      simp [h, h1, h2, h3, this]
  · have : b.getLsbD (i - (w - 8)) = false := BitVec.getLsbD_of_ge _ _ (by omega)
    simp [h, this]

theorem byteAtTop_le_mask (hw : w ≤ 64) (h8 : 8 ≤ w) (b : Byte) :
    (b.setWidth 64 : Word) <<< (w - 8) ≤ mask w := by
  rw [le_mask_iff hw]
  apply BitVec.eq_of_getLsbD_eq
  intro i _
  rw [BitVec.getLsbD_and, getLsbD_byteAtTop hw h8, getLsbD_mask hw]
  by_cases h : i < w <;> simp [h]

theorem topByte_byteAtTop (hw : w ≤ 64) (h8 : 8 ≤ w) (b : Byte) :
    topByte w ((b.setWidth 64 : Word) <<< (w - 8)) = b := by
  apply BitVec.eq_of_getLsbD_eq
  intro i hi
  have h1 : w - 8 + i - (w - 8) = i := by omega
  have h2 : w - 8 + i < w := by omega
  simp only [topByte, h8, if_true, BitVec.getLsbD_setWidth, BitVec.getLsbD_ushiftRight,
    getLsbD_byteAtTop hw h8, h1]
  simp [hi, h2]

theorem byteAtTop_shift (hw : w ≤ 64) (h8 : 8 ≤ w) (b : Byte) :
    ((b.setWidth 64 : Word) <<< (w - 8)) <<< 8 &&& mask w = 0 := by
  apply BitVec.eq_of_getLsbD_eq
  intro i hi
  rw [BitVec.getLsbD_and, BitVec.getLsbD_shiftLeft, getLsbD_byteAtTop hw h8, getLsbD_mask hw]
  by_cases h : i < w
  · have : ¬ w - 8 ≤ i - 8 ∨ i < 8 := by omega
    rcases this with h' | h' <;> simp [h']
  · simp [h]

/-- Eight rounds with bit 0 from a register loaded with a byte at the top are the byte's own eight rounds from 0: the
polynomial meets the same bits (R103 against R105). -/
theorem rounds_from_top (hw : w ≤ 64) (h8 : 8 ≤ w) (b : Byte) :
    (List.replicate 8 false).foldl (serialBit w poly) ((b.setWidth 64 : Word) <<< (w - 8)) = plain w poly b := by
  have hz : List.replicate 8 false = byteBits false 0 := by decide
  have hsum := serialByte_topByte (poly := poly) hw (by omega) (byteAtTop_le_mask hw h8 b)
  rw [topByte_byteAtTop hw h8, byteAtTop_shift hw h8] at hsum
  have hlin := serialByte_xor (poly := poly) hw false ((b.setWidth 64 : Word) <<< (w - 8)) 0 0 b
  have e1 : ((b.setWidth 64 : Word) <<< (w - 8)) ^^^ 0 = (b.setWidth 64 : Word) <<< (w - 8) := BitVec.xor_zero
  have e2 : (0 : Byte) ^^^ b = b := BitVec.zero_xor
  rw [e1, e2, hsum] at hlin
  rw [hz]
  exact BitVec.xor_eq_zero_iff.1 hlin.symm

/-! ## The rounds for `w ≤ 7` -/

/-- A round of R104's 8-bit register is a bit-serial round at width 8. -/
theorem narrowRound_setWidth (p8 r : Byte) :
    (narrowRound p8 r).setWidth 64 = serialBit 8 (p8.setWidth 64) (r.setWidth 64) false := by
  apply BitVec.eq_of_getLsbD_eq
  intro i hi
  rw [getLsbD_serialBit (by omega) _ _ i hi]
  have hr : ∀ j, (narrowRound p8 r).getLsbD j = ((r <<< 1).getLsbD j ^^ (r.getLsbD 7 && p8.getLsbD j)) := by
    intro j
    unfold narrowRound
    split <;> simp_all
  rw [BitVec.getLsbD_setWidth, hr]
  by_cases h : i < 8
  · have h2 : i - 1 < 8 := by omega
    have h3 : i - 1 < 64 := by omega
    rcases Nat.eq_zero_or_pos i with rfl | hpos
    · simp
    · simp [hi, h, h2, h3, Nat.one_le_iff_ne_zero, Nat.pos_iff_ne_zero.1 hpos]
  · have h1 : p8.getLsbD i = false := BitVec.getLsbD_of_ge _ _ (by omega)
    simp [h, h1]

theorem repeat_narrowRound_setWidth (p8 : Byte) (n : Nat) (r : Byte) :
    (Nat.repeat (narrowRound p8) n r).setWidth 64 =
      (List.replicate n false).foldl (serialBit 8 (p8.setWidth 64)) (r.setWidth 64) := by
  induction n with
  | zero => rfl
  | succ n ih =>
    rw [Nat.repeat, narrowRound_setWidth, ih, List.replicate_succ', List.foldl_append]
    rfl

/-- A `w`-bit register and the same register scaled up to 8 bits stay scaled (R104: "the register and the polynomial
are scaled up by `s` bit positions"). -/
theorem serialBit_scaled (h0 : 1 ≤ w) (h8 : w ≤ 8) (r : Word) (b : Bool) :
    serialBit 8 (poly <<< (8 - w)) (r <<< (8 - w)) b = serialBit w poly r b <<< (8 - w) := by
  have hw : w ≤ 64 := by omega
  apply BitVec.eq_of_getLsbD_eq
  intro i hi
  rw [getLsbD_serialBit (by omega) _ _ i hi, BitVec.getLsbD_shiftLeft (serialBit w poly r b)]
  have e7 : 8 - 1 - (8 - w) = w - 1 := by omega
  have n7 : ¬ 8 - 1 < 8 - w := by omega
  by_cases h : i < 8 - w
  · have h1 : i - 1 < 8 - w := by omega
    simp [BitVec.getLsbD_shiftLeft, h, h1]
  · rw [getLsbD_serialBit hw _ _ (i - (8 - w)) (by omega)]
    have e : i - 1 - (8 - w) = i - (8 - w) - 1 := by omega
    simp only [BitVec.getLsbD_shiftLeft, e7, n7, h, e]
    by_cases h1 : i - (8 - w) < w
    · have h2 : i < 8 := by omega
      by_cases h3 : 1 ≤ i - (8 - w)
      · have h4 : 1 ≤ i := by omega
        have h5 : ¬ i - 1 < 8 - w := by omega
        have h6 : i - 1 < 64 := by omega
        simp [hi, h1, h2, h3, h4, h5, h6]
      · by_cases h4 : 1 ≤ i
        · have h5 : i - 1 < 8 - w := by omega
          simp [hi, h1, h2, h3, h5]
        · simp [hi, h1, h2, h3, h4]
    · have h2 : ¬ i < 8 := by omega
      simp [hi, h1, h2]

theorem foldl_serialBit_scaled (h0 : 1 ≤ w) (h8 : w ≤ 8) (l : List Bool) (r : Word) :
    l.foldl (serialBit 8 (poly <<< (8 - w))) (r <<< (8 - w)) = l.foldl (serialBit w poly) r <<< (8 - w) := by
  induction l generalizing r with
  | nil => rfl
  | cons b l ih => rw [List.foldl_cons, serialBit_scaled h0 h8, ih, List.foldl_cons]

/-- A value of a `w`-bit register scaled up to 8 bits fits a byte. -/
theorem setWidth_scaled (h8 : w ≤ 8) {v : Word} (hv : v ≤ mask w) :
    ((v <<< (8 - w)).setWidth 8).setWidth 64 = v <<< (8 - w) := by
  apply BitVec.eq_of_getLsbD_eq
  intro i hi
  rw [BitVec.getLsbD_setWidth, BitVec.getLsbD_setWidth, BitVec.getLsbD_shiftLeft]
  by_cases h : i < 8
  · simp [h, hi]
  · have : v.getLsbD (i - (8 - w)) = false := getLsbD_of_le_mask (by omega) hv (by omega)
    simp [h, this]

theorem scaled_shift_back (h8 : w ≤ 8) {v : Word} (hv : v ≤ mask w) : (v <<< (8 - w)) >>> (8 - w) = v := by
  apply BitVec.eq_of_getLsbD_eq
  intro i hi
  rw [BitVec.getLsbD_ushiftRight, BitVec.getLsbD_shiftLeft]
  have e : 8 - w + i - (8 - w) = i := by omega
  by_cases h : i < w
  · have h1 : 8 - w + i < 64 := by omega
    simp [e, h1]
  · have : v.getLsbD i = false := getLsbD_of_le_mask (by omega) hv (by omega)
    simp [e, this]

/-! ## The register before step 4 -/

theorem wideRegister_mask (h8 : 8 ≤ w) (hw : w ≤ 64) (hp : poly ≤ mask w) (b : Byte) :
    wideRegister w poly (b.setWidth 64) &&& mask w = plain w poly b := by
  rw [wideRegister, repeat_wideRound_mask hw (by omega) hp, (le_mask_iff hw _).1 (byteAtTop_le_mask hw h8 b),
    rounds_from_top hw h8]

theorem narrowRegister_eq (h0 : 1 ≤ w) (h8 : w ≤ 8) (hp : poly ≤ mask w) (b : Byte) :
    narrowRegister w poly (b.setWidth 64) = plain w poly b := by
  have hplain : plain w poly b ≤ mask w := serialByte_le_mask (by omega) hp _ (zero_le_mask w) b
  have hround := rounds_from_top (w := 8) (poly := poly <<< (8 - w)) (by omega) (by omega) b
  rw [Nat.sub_self, BitVec.shiftLeft_zero, plain, serialByte] at hround
  have hscale := foldl_serialBit_scaled (poly := poly) h0 h8 (byteBits false b) 0
  have e0 : (0 : Word) <<< (8 - w) = 0 := BitVec.zero_shiftLeft _
  rw [e0] at hscale
  have hreg : (Nat.repeat (narrowRound ((poly <<< (8 - w)).setWidth 8)) 8 b).setWidth 64 =
      plain w poly b <<< (8 - w) := by
    rw [repeat_narrowRound_setWidth, setWidth_scaled h8 hp, hround]
    exact hscale
  have hb : (b.setWidth 64).setWidth 8 = b := by simp
  rw [narrowRegister, hb]
  have hshift : ∀ (x : Byte) (k : Nat), (x >>> k).setWidth 64 = (x.setWidth 64 : Word) >>> k := by
    intro x k
    apply BitVec.eq_of_toNat_eq
    have := x.isLt
    simp only [BitVec.toNat_setWidth, BitVec.toNat_ushiftRight]
    rw [Nat.mod_eq_of_lt (a := x.toNat) (by omega), Nat.mod_eq_of_lt]
    exact lt_of_le_of_lt (Nat.shiftRight_le _ _) (by omega)
  rw [hshift, hreg, scaled_shift_back h8 hplain]

/-- The masked register after step 3 is `Plain` of the byte it was loaded with, at every width and under either rule
(R103, R104, R105). -/
theorem tableRegister_mask (rule : NarrowRule) (h2 : 2 ≤ w) (hw : w ≤ 64) (hp : poly ≤ mask w) (b : Byte) :
    tableRegister rule w poly (b.setWidth 64) &&& mask w = plain w poly b := by
  unfold tableRegister
  split
  · exact wideRegister_mask (by assumption) hw hp b
  · cases rule
    show narrowRegister w poly (b.setWidth 64) &&& mask w = plain w poly b
    rw [narrowRegister_eq (by omega) (by omega) hp]
    exact (le_mask_iff hw _).1 (serialByte_le_mask hw hp _ (zero_le_mask w) b)

end Sys2Proof.Machine
end

