-- ==== Sys2Proof/Laws/Compute.lean ====
section
/-! SUPPORT. The compute path: the running register stays inside the mask (spec/43_crc_generator.md R134), and what a
byte step is in the bit-serial register, in either domain (R123, R124, R125 against R128). -/

namespace Sys2Proof.Machine

variable {w : Nat}

/-! ## The register inside the mask -/

theorem byteStep_le_mask (rule : NarrowRule) (e : Engine) (hw : e.params.w ≤ 64) (crc : Word) (b : Byte) :
    byteStep rule e crc b ≤ mask e.params.w :=
  and_mask_le hw _

theorem foldl_byteStep_le_mask (rule : NarrowRule) (e : Engine) (hw : e.params.w ≤ 64) (data : List Byte) {crc : Word}
    (h : crc ≤ mask e.params.w) : data.foldl (byteStep rule e) crc ≤ mask e.params.w := by
  induction data generalizing crc with
  | nil => exact h
  | cons b data ih => exact ih (byteStep_le_mask rule e hw crc b)

theorem startRegister_le_mask {p : ParamSet} (hp : p.Valid) : startRegister p ≤ mask p.w :=
  reflectIf_le_mask _ hp.width_le hp.init_le

/-- An engine built from a valid parameter set is valid (R22, R101). -/
theorem newEngine_valid (rule : NarrowRule) {p : ParamSet} (hp : p.Valid) : (newEngine rule p).Valid rule where
  params := hp
  table_eq i := buildTable_lookup rule p i
  table_le i := by rw [buildTable_lookup]; exact tableEntry_le_mask hp.width_le rule _ i

/-! ## Reflection against the shifts of the two domains -/

/-- Bit reversal of a byte (R90 at `n = 8`). -/
def reflectByte (b : Byte) : Byte := (reflect (b.setWidth 64) 8).setWidth 8

theorem getLsbD_reflectByte (b : Byte) (i : Nat) :
    (reflectByte b).getLsbD i = (decide (i < 8) && b.getLsbD (7 - i)) := by
  rw [reflectByte, BitVec.getLsbD_setWidth, getLsbD_reflect _ _ _ (by omega), BitVec.getLsbD_setWidth]
  by_cases h : i < 8
  · have h1 : 8 - 1 - i < 64 := by omega
    simp [h, h1]
  · simp [h]

/-- Taking a byte bit 0 first is taking its reversal bit 7 first (R44 clause 2). -/
theorem byteBits_true (b : Byte) : byteBits true b = byteBits false (reflectByte b) := by
  simp only [byteBits, if_true, Bool.false_eq_true, if_false]
  apply List.map_congr_left
  intro k hk
  have hk8 : k < 8 := List.mem_range.1 hk
  have h1 : 7 - k < 8 := by omega
  have h2 : 7 - (7 - k) = k := by omega
  rw [getLsbD_reflectByte]
  simp [h1, h2]

/-- A left shift by 8 in the plain domain is a right shift by 8 in the reflected one (R92 clause 5, eight times). -/
theorem reflect_shift_eight (hw : w ≤ 64) (r : Word) :
    reflect ((r <<< 8) &&& mask w) w = reflect r w >>> 8 := by
  apply BitVec.eq_of_getLsbD_eq
  intro i hi
  rw [getLsbD_reflect _ _ _ hw, BitVec.getLsbD_and, getLsbD_mask hw, BitVec.getLsbD_shiftLeft,
    BitVec.getLsbD_ushiftRight, getLsbD_reflect _ _ _ hw]
  by_cases h : i < w
  · have h1 : w - 1 - i < w := by omega
    have h2 : w - 1 - i < 64 := by omega
    by_cases h3 : w - 1 - i < 8
    · have : ¬ 8 + i < w := by omega
      simp [h3, this]
    · have h4 : 8 + i < w := by omega
      have h5 : w - 1 - i - 8 = w - 1 - (8 + i) := by omega
      simp [h, h1, h2, h3, h4, h5]
  · have : ¬ 8 + i < w := by omega
    simp [h, this]

/-- The low byte of the reflected register is the reversal of the top byte of the plain one: the index of R123. -/
theorem setWidth_reflect (hw : w ≤ 64) (r : Word) : (reflect r w).setWidth 8 = reflectByte (topByte w r) := by
  apply BitVec.eq_of_getLsbD_eq
  intro i hi
  rw [BitVec.getLsbD_setWidth, getLsbD_reflect _ _ _ hw, getLsbD_reflectByte, getLsbD_topByte r i hi]

/-! ## One byte step -/

/-- The byte step of R124 and R125 on a table of `Plain` entries is one byte of the bit-serial register. -/
theorem byteStep_plain {rule : NarrowRule} {e : Engine} (hv : e.params.Valid) (hf : e.params.refin = false)
    (ht : ∀ i, e.lookup i = plain e.params.w e.params.poly i) {r : Word} (hr : r ≤ mask e.params.w) (b : Byte) :
    byteStep rule e r b = serialByte e.params.w e.params.poly false r b := by
  have hw := hv.width_le
  have hidx : stepIndex rule e.params r b = topByte e.params.w r ^^^ b := by
    apply BitVec.eq_of_getLsbD_eq
    intro i hi
    have hi64 : i < 64 := by omega
    unfold stepIndex topByte
    rw [hf]
    split
    · contradiction
    · split
      · simp [hi, hi64]
      · cases rule
        simp [hi]
  rw [serialByte_eq_plain hw (by have := hv.width_ge; omega) hr, byteStep, hidx, ht, hf]
  have hp : plain e.params.w e.params.poly (topByte e.params.w r ^^^ b) ≤ mask e.params.w :=
    serialByte_le_mask hw hv.poly_le _ (zero_le_mask _) _
  conv_rhs => rw [← (le_mask_iff hw _).1 hp]
  apply BitVec.eq_of_getLsbD_eq
  intro i _
  simp only [BitVec.getLsbD_and, BitVec.getLsbD_xor, Bool.false_eq_true, if_false]
  cases (mask e.params.w).getLsbD i <;> simp

/-- The byte step of R123 on a table of reflected entries is one byte of the bit-serial register, both registers
reflected. -/
theorem byteStep_reflected {rule : NarrowRule} {e : Engine} (hv : e.params.Valid) (hf : e.params.refin = true)
    (ht : ∀ i, e.lookup i = reflect (plain e.params.w e.params.poly (reflectByte i)) e.params.w)
    {r : Word} (hr : r ≤ mask e.params.w) (b : Byte) :
    byteStep rule e (reflect r e.params.w) b =
      reflect (serialByte e.params.w e.params.poly true r b) e.params.w := by
  have hw := hv.width_le
  have hser : serialByte e.params.w e.params.poly true r b =
      serialByte e.params.w e.params.poly false r (reflectByte b) := by
    rw [serialByte, byteBits_true]; rfl
  have hidx : reflectByte (stepIndex rule e.params (reflect r e.params.w) b) =
      topByte e.params.w r ^^^ reflectByte b := by
    have h1 : stepIndex rule e.params (reflect r e.params.w) b = (reflect r e.params.w).setWidth 8 ^^^ b := by
      apply BitVec.eq_of_getLsbD_eq
      intro i hi
      have hi64 : i < 64 := by omega
      simp [stepIndex, hf, hi, hi64]
    rw [h1, setWidth_reflect hw]
    apply BitVec.eq_of_getLsbD_eq
    intro i hi
    have h2 : 7 - i < 8 := by omega
    have h3 : 7 - (7 - i) = i := by omega
    rw [getLsbD_reflectByte, BitVec.getLsbD_xor, getLsbD_reflectByte, BitVec.getLsbD_xor, getLsbD_reflectByte]
    simp [h2, h3, hi]
  rw [hser, serialByte_eq_plain hw (by have := hv.width_ge; omega) hr, reflect_xor_bits _ _ hw,
    reflect_shift_eight hw, byteStep, ht, hidx, hf]
  simp only [if_true]
  rw [← le_mask_iff hw]
  apply xor_le_mask hw (reflect_le_mask _ hw)
  rw [← reflect_shift_eight hw]
  exact reflect_le_mask _ hw

end Sys2Proof.Machine
end

