-- ==== Sys2Proof/Laws/Decode.lean ====
section
/-! SUPPORT. The fields of a packed command word (spec/30_encoding.md R61), one lemma per field, and the selector of
RDPRM both ways. -/

namespace Sys2Proof

section pack
variable (op : BitVec 4) (f0 f1 : Bool) (a : Byte) (x y z : Word)

/-- The bits of a packed word. -/
theorem CommandWord.getLsbD_pack (i : Nat) :
    (CommandWord.pack op f0 f1 a x y z).getLsbD i =
      if i < 4 then op.getLsbD i
      else if i < 5 then f0
      else if i < 6 then f1
      else if i < 8 then false
      else if i < 16 then a.getLsbD (i - 8)
      else if i < 80 then x.getLsbD (i - 16)
      else if i < 144 then y.getLsbD (i - 80)
      else z.getLsbD (i - 144) := by
  simp only [CommandWord.pack, BitVec.getLsbD_append, BitVec.getLsbD_ofBool]
  by_cases h1 : i < 4
  · simp [h1]
  by_cases h2 : i < 5
  · have : i - 4 = 0 := by omega
    simp [h1, h2, this]
  by_cases h3 : i < 6
  · have e1 : ¬ i - 4 < 1 := by omega
    have e2 : i - 4 - 1 = 0 := by omega
    simp [h1, h2, h3, e1, e2]
  by_cases h4 : i < 8
  · have e1 : ¬ i - 4 < 1 := by omega
    have e2 : ¬ i - 4 - 1 < 1 := by omega
    have e3 : i - 4 - 1 - 1 < 2 := by omega
    simp [h1, h2, h3, h4, e1, e2, e3]
  have e1 : ¬ i - 4 < 1 := by omega
  have e2 : ¬ i - 4 - 1 < 1 := by omega
  have e3 : ¬ i - 4 - 1 - 1 < 2 := by omega
  have e4 : i - 4 - 1 - 1 - 2 = i - 8 := by omega
  by_cases h5 : i < 16
  · have e5 : i - 8 < 8 := by omega
    simp [h1, h2, h3, h4, h5, e1, e2, e3, e4, e5]
  have e5 : ¬ i - 8 < 8 := by omega
  have e6 : i - 8 - 8 = i - 16 := by omega
  by_cases h6 : i < 80
  · have e7 : i - 16 < 64 := by omega
    simp [h1, h2, h3, h4, h5, h6, e1, e2, e3, e4, e5, e6, e7]
  have e7 : ¬ i - 16 < 64 := by omega
  have e8 : i - 16 - 64 = i - 80 := by omega
  by_cases h7 : i < 144
  · have e9 : i - 80 < 64 := by omega
    simp [h1, h2, h3, h4, h5, h6, h7, e1, e2, e3, e4, e5, e6, e7, e8, e9]
  have e9 : ¬ i - 80 < 64 := by omega
  have e10 : i - 80 - 64 = i - 144 := by omega
  simp [h1, h2, h3, h4, h5, h6, h7, e1, e2, e3, e4, e5, e6, e7, e8, e9, e10]

@[simp] theorem CommandWord.op_pack : (CommandWord.pack op f0 f1 a x y z).op = op := by
  apply BitVec.eq_of_getLsbD_eq
  intro i hi
  rw [CommandWord.op, BitVec.getLsbD_extractLsb', CommandWord.getLsbD_pack]
  simp [hi]

@[simp] theorem CommandWord.f0_pack : (CommandWord.pack op f0 f1 a x y z).f0 = f0 := by
  rw [CommandWord.f0, CommandWord.getLsbD_pack]; rfl

@[simp] theorem CommandWord.f1_pack : (CommandWord.pack op f0 f1 a x y z).f1 = f1 := by
  rw [CommandWord.f1, CommandWord.getLsbD_pack]; rfl

@[simp] theorem CommandWord.a_pack : (CommandWord.pack op f0 f1 a x y z).a = a := by
  apply BitVec.eq_of_getLsbD_eq
  intro i hi
  rw [CommandWord.a, BitVec.getLsbD_extractLsb', CommandWord.getLsbD_pack]
  have e : 8 + i - 8 = i := by omega
  have h : ¬ 8 + i < 4 ∧ ¬ 8 + i < 5 ∧ ¬ 8 + i < 6 ∧ ¬ 8 + i < 8 ∧ 8 + i < 16 := by omega
  simp only [h, e, hi, if_true, if_false, decide_true, Bool.true_and]

@[simp] theorem CommandWord.x_pack : (CommandWord.pack op f0 f1 a x y z).x = x := by
  apply BitVec.eq_of_getLsbD_eq
  intro i hi
  rw [CommandWord.x, BitVec.getLsbD_extractLsb', CommandWord.getLsbD_pack]
  have e : 16 + i - 16 = i := by omega
  have h : ¬ 16 + i < 4 ∧ ¬ 16 + i < 5 ∧ ¬ 16 + i < 6 ∧ ¬ 16 + i < 8 ∧ ¬ 16 + i < 16 ∧ 16 + i < 80 := by omega
  simp only [h, e, hi, if_true, if_false, decide_true, Bool.true_and]

@[simp] theorem CommandWord.y_pack : (CommandWord.pack op f0 f1 a x y z).y = y := by
  apply BitVec.eq_of_getLsbD_eq
  intro i hi
  rw [CommandWord.y, BitVec.getLsbD_extractLsb', CommandWord.getLsbD_pack]
  have e : 80 + i - 80 = i := by omega
  have h : ¬ 80 + i < 4 ∧ ¬ 80 + i < 5 ∧ ¬ 80 + i < 6 ∧ ¬ 80 + i < 8 ∧ ¬ 80 + i < 16 ∧ ¬ 80 + i < 80 ∧
      80 + i < 144 := by omega
  simp only [h, e, hi, if_true, if_false, decide_true, Bool.true_and]

@[simp] theorem CommandWord.z_pack : (CommandWord.pack op f0 f1 a x y z).z = z := by
  apply BitVec.eq_of_getLsbD_eq
  intro i hi
  rw [CommandWord.z, BitVec.getLsbD_extractLsb', CommandWord.getLsbD_pack]
  have e : 144 + i - 144 = i := by omega
  have h : ¬ 144 + i < 4 ∧ ¬ 144 + i < 5 ∧ ¬ 144 + i < 6 ∧ ¬ 144 + i < 8 ∧ ¬ 144 + i < 16 ∧ ¬ 144 + i < 80 ∧
      ¬ 144 + i < 144 := by omega
  simp only [h, e, hi, if_false, decide_true, Bool.true_and]

end pack

/-- The opcode field as a masked word: what the mask 0xF of a table row compares (R64). -/
theorem CommandWord.and_opMask (w : CommandWord) : w &&& 0xF = w.op.setWidth 208 := by
  have h : (0xF : CommandWord) = (BitVec.allOnes 4).setWidth 208 := by decide
  apply BitVec.eq_of_getLsbD_eq
  intro i hi
  rw [h, BitVec.getLsbD_and, BitVec.getLsbD_setWidth, BitVec.getLsbD_setWidth, CommandWord.op,
    BitVec.getLsbD_extractLsb', BitVec.getLsbD_allOnes]
  by_cases h4 : i < 4 <;> simp [hi, h4]

/-- Two words that agree under a mask agree on every run of bits the mask keeps. -/
theorem CommandWord.extractLsb'_eq_of_and_eq {r w v : CommandWord} (h : w &&& r = v &&& r) {lo len : Nat}
    (hr : ∀ i, i < len → r.getLsbD (lo + i) = true) : w.extractLsb' lo len = v.extractLsb' lo len := by
  apply BitVec.eq_of_getLsbD_eq
  intro i hi
  have := congrArg (fun x => BitVec.getLsbD x (lo + i)) h
  simp only [BitVec.getLsbD_and, hr i hi, Bool.and_true] at this
  rw [BitVec.getLsbD_extractLsb', BitVec.getLsbD_extractLsb', this]

/-- The selector of RDPRM reads back the bank and the field it was written from. -/
theorem bank_rdprmOperand (b : Bank) (f : ParamField) : Bank.ofBit ((rdprmOperand b f).getLsbD 2) = b := by
  cases b <;> cases f <;> rfl

theorem field_rdprmOperand (b : Bank) (f : ParamField) :
    ParamField.ofBits ((rdprmOperand b f).extractLsb' 0 2) = f := by
  cases b <;> cases f <;> rfl

end Sys2Proof
end

