-- ==== Sys2Proof/Laws/Memory.lean ====
section
/-! SUPPORT. The laws of MSG: a read after a write, that a write keeps the canonical form, and that memories in that form
which hold the same bytes are equal. -/

namespace Sys2Proof.Machine

@[simp] theorem Memory.held_nil (a : Nat) : Memory.held [] a = none := rfl

theorem Memory.held_cons (c : Nat) (v : Byte) (m : Memory) (a : Nat) :
    Memory.held ((c, v) :: m) a = if c = a then some v else Memory.held m a := rfl

theorem Memory.read_of_held {m : Memory} {a : Nat} {b : Byte} (h : m.held a = some b) : m.read a = b := by
  rw [Memory.read, h, Option.getD_some]

/-- Where the host has put no byte, a read gives the free value. -/
theorem Memory.read_of_not_held {m : Memory} {a : Nat} (h : m.held a = none) : m.read a = Memory.unlisted a := by
  rw [Memory.read, h, Option.getD_none]

theorem Memory.wf_cons {c : Nat} {v : Byte} {m : Memory} :
    Memory.wf ((c, v) :: m) ↔ (∀ d ∈ m, c < d.1) ∧ Memory.wf m := List.pairwise_cons

/-- A write, then the byte held at any address. -/
theorem Memory.held_write (m : Memory) (a : Nat) (b : Byte) (a' : Nat) :
    (m.write a b).held a' = if a = a' then some b else m.held a' := by
  induction m with
  | nil => rfl
  | cons d m ih =>
    obtain ⟨c, v⟩ := d
    unfold Memory.write
    split
    · rfl
    · split
      · subst a
        simp only [Memory.held_cons]
        split <;> rfl
      · simp only [Memory.held_cons, ih]
        split
        · rw [if_neg (by omega)]
        · rfl

/-- A read after a write of the same address gives the byte written. -/
theorem Memory.read_write_same (m : Memory) (a : Nat) (b : Byte) : (m.write a b).read a = b :=
  Memory.read_of_held (by rw [Memory.held_write, if_pos rfl])

/-- A write leaves every other address alone. -/
theorem Memory.read_write_other (m : Memory) {a a' : Nat} (hne : a' ≠ a) (b : Byte) :
    (m.write a b).read a' = m.read a' := by
  rw [Memory.read, Memory.held_write, if_neg hne.symm, Memory.read]

/-- A cell after a write is the one written or one that was there. -/
theorem Memory.mem_write {m : Memory} {a : Nat} {b : Byte} {d : Host.Cell} (hd : d ∈ m.write a b) :
    d = (a, b) ∨ d ∈ m := by
  induction m with
  | nil => simpa [Memory.write] using hd
  | cons e m ih =>
    unfold Memory.write at hd
    split at hd
    · simpa using hd
    · split at hd
      · rcases List.mem_cons.1 hd with h | h
        · exact .inl h
        · exact .inr (by simp [h])
      · rcases List.mem_cons.1 hd with h | h
        · exact .inr (by simp [h])
        · exact (ih h).imp_right (by simp +contextual)

/-- A write keeps the canonical form. -/
theorem Memory.write_wf {m : Memory} (h : m.wf) (a : Nat) (b : Byte) : (m.write a b).wf := by
  induction m with
  | nil => exact List.pairwise_singleton _ _
  | cons d m ih =>
    obtain ⟨c, v⟩ := d
    obtain ⟨hlt, hm⟩ := Memory.wf_cons.1 h
    unfold Memory.write
    split
    · refine Memory.wf_cons.2 ⟨?_, h⟩
      simp only [List.forall_mem_cons]
      exact ⟨by assumption, fun d hd => by have := hlt d hd; omega⟩
    · split
      · subst a; exact Memory.wf_cons.2 ⟨hlt, hm⟩
      · refine Memory.wf_cons.2 ⟨fun d hd => ?_, ih hm⟩
        rcases Memory.mem_write hd with rfl | hd
        · show c < a
          omega
        · exact hlt d hd

/-- An address at or below the first listed one, and not it, holds no byte. -/
theorem Memory.held_of_lt {m : Memory} {a : Nat} (h : ∀ d ∈ m, a < d.1) : m.held a = none := by
  induction m with
  | nil => rfl
  | cons d m ih =>
    have hd : a < d.1 := h d (by simp)
    rw [show d = (d.1, d.2) from rfl, Memory.held_cons, if_neg (by omega)]
    exact ih fun e he => h e (by simp [he])

/-- Memories in canonical form that hold the same bytes are the same list. -/
theorem Memory.ext_held {m m' : Memory} (h : m.wf) (h' : m'.wf) (he : ∀ a, m.held a = m'.held a) : m = m' := by
  induction m generalizing m' with
  | nil =>
    cases m' with
    | nil => rfl
    | cons d m' => have := he d.1; rw [show d = (d.1, d.2) from rfl, Memory.held_cons, if_pos rfl] at this; cases this
  | cons d m ih =>
    obtain ⟨c, v⟩ := d
    obtain ⟨hlt, hm⟩ := Memory.wf_cons.1 h
    cases m' with
    | nil => have := he c; simp [Memory.held_cons] at this
    | cons d' m' =>
      obtain ⟨c', v'⟩ := d'
      obtain ⟨hlt', hm'⟩ := Memory.wf_cons.1 h'
      have low : ∀ {x y : Nat} {u w : Byte} {n k : Memory}, (∀ d ∈ k, y < d.1) → x < y →
          Memory.held ((x, u) :: n) x ≠ Memory.held ((y, w) :: k) x := by
        intro x y u w n k hk hxy
        rw [Memory.held_cons, if_pos rfl, Memory.held_cons, if_neg (by omega),
          Memory.held_of_lt fun d hd => by have := hk d hd; omega]
        simp
      have hc : c = c' := by
        rcases Nat.lt_trichotomy c c' with hl | hl | hl
        · exact absurd (he c) (low hlt' hl)
        · exact hl
        · exact absurd (he c').symm (low hlt hl)
      subst c'
      have hv : v = v' := by simpa [Memory.held_cons] using he c
      subst v'
      refine congrArg _ (ih hm hm' fun a => ?_)
      by_cases hca : c = a
      · subst a; rw [Memory.held_of_lt hlt, Memory.held_of_lt hlt']
      · simpa [Memory.held_cons, hca] using he a

theorem Memory.write_fits {m : Memory} {c : Config} (h : m.Fits c) (a : Nat) (b : Byte) :
    (m.write (a % 2 ^ c.addrBits) b).Fits c where
  wf := Memory.write_wf h.wf _ _
  in_range d hd := by
    rcases Memory.mem_write hd with rfl | hd
    · exact Nat.mod_lt _ (by positivity)
    · exact h.in_range d hd

theorem State.reset_msg_wf : State.reset.msg.wf := by decide

end Sys2Proof.Machine
end

