-- ==== Sys2Proof/Laws/State.lean ====
section
/-! SUPPORT. One lemma per field per update of `State`, each true by `rfl`, so that no later proof unfolds a record
update. -/

namespace Sys2Proof.Machine

section answered
variable (s : State) (r : Response) (l : List Nat)
@[simp] theorem State.answered_config : (s.answered r l).config = s.config := rfl
@[simp] theorem State.answered_ps : (s.answered r l).ps = s.ps := rfl
@[simp] theorem State.answered_eng : (s.answered r l).eng = s.eng := rfl
@[simp] theorem State.answered_msg : (s.answered r l).msg = s.msg := rfl
@[simp] theorem State.answered_presented : (s.answered r l).presented = s.presented := rfl
@[simp] theorem State.answered_rsp : (s.answered r l).rsp = some r := rfl
@[simp] theorem State.answered_reads : (s.answered r l).reads = l := rfl
@[simp] theorem State.answered_host : (s.answered r l).host = s.host := rfl

/-- An answer replaces the answer before it: nothing of an earlier response or of its reads is left. -/
@[simp] theorem State.answered_answered (r' : Response) (l' : List Nat) :
    (s.answered r l).answered r' l' = s.answered r' l' := rfl
end answered

section reset
variable (s : State)
@[simp] theorem applyReset_config : (applyReset s).config = s.config := rfl
@[simp] theorem applyReset_ps : (applyReset s).ps = none := rfl
@[simp] theorem applyReset_eng : (applyReset s).eng = none := rfl
@[simp] theorem applyReset_msg : (applyReset s).msg = s.msg := rfl
@[simp] theorem applyReset_presented : (applyReset s).presented = s.presented := rfl
@[simp] theorem applyReset_rsp : (applyReset s).rsp = none := rfl
@[simp] theorem applyReset_reads : (applyReset s).reads = [] := rfl
@[simp] theorem applyReset_host : (applyReset s).host = s.host := rfl
end reset

section write
variable (a : Word) (b : Byte) (s : State)
@[simp] theorem hostWrite_config : (hostWrite a b s).config = s.config := rfl
@[simp] theorem hostWrite_ps : (hostWrite a b s).ps = s.ps := rfl
@[simp] theorem hostWrite_eng : (hostWrite a b s).eng = s.eng := rfl
@[simp] theorem hostWrite_msg :
    (hostWrite a b s).msg = s.msg.write (a.toNat % 2 ^ s.config.addrBits) b := rfl
@[simp] theorem hostWrite_presented : (hostWrite a b s).presented = s.presented := rfl
@[simp] theorem hostWrite_rsp : (hostWrite a b s).rsp = s.rsp := rfl
@[simp] theorem hostWrite_reads : (hostWrite a b s).reads = s.reads := rfl
@[simp] theorem hostWrite_host : (hostWrite a b s).host = s.host := rfl
end write

section take
variable (s : State)
@[simp] theorem takeResponse_config : (takeResponse s).config = s.config := rfl
@[simp] theorem takeResponse_ps : (takeResponse s).ps = s.ps := rfl
@[simp] theorem takeResponse_eng : (takeResponse s).eng = s.eng := rfl
@[simp] theorem takeResponse_msg : (takeResponse s).msg = s.msg := rfl
@[simp] theorem takeResponse_presented : (takeResponse s).presented = s.presented := rfl
@[simp] theorem takeResponse_rsp : (takeResponse s).rsp = none := rfl
@[simp] theorem takeResponse_reads : (takeResponse s).reads = s.reads := rfl
@[simp] theorem takeResponse_host : (takeResponse s).host = s.host := rfl
end take

section present
variable (p : Presentation) (s : State)
@[simp] theorem present_config : (present p s).config = s.config := rfl
@[simp] theorem present_ps : (present p s).ps = s.ps := rfl
@[simp] theorem present_eng : (present p s).eng = s.eng := rfl
@[simp] theorem present_msg : (present p s).msg = s.msg := rfl
@[simp] theorem present_presented : (present p s).presented = s.presented ++ [p] := rfl
@[simp] theorem present_rsp : (present p s).rsp = s.rsp := rfl
@[simp] theorem present_reads : (present p s).reads = s.reads := rfl
@[simp] theorem present_host : (present p s).host = s.host := rfl
end present

section fetch
variable (s : State) (n w : Nat)
@[simp] theorem State.withFetchWord_config : (s.withFetchWord n w).config = s.config := rfl
@[simp] theorem State.withFetchWord_ps : (s.withFetchWord n w).ps = s.ps := rfl
@[simp] theorem State.withFetchWord_eng : (s.withFetchWord n w).eng = s.eng := rfl
@[simp] theorem State.withFetchWord_msg : (s.withFetchWord n w).msg = s.msg := rfl
@[simp] theorem State.withFetchWord_rsp : (s.withFetchWord n w).rsp = none := rfl
@[simp] theorem State.withFetchWord_reads : (s.withFetchWord n w).reads = s.reads := rfl
@[simp] theorem State.withFetchWord_host : (s.withFetchWord n w).host = s.host := rfl
@[simp] theorem State.withFetchWord_presented :
    (s.withFetchWord n w).presented = { word := tableWord n w, cut := false } :: s.presented := rfl
end fetch

end Sys2Proof.Machine
end

