-- ==== Sys2Proof/Laws/Ops.lean ====
section
/-! SUPPORT. What the shared operations and `exec` can do, said once: later proofs cite these and unfold no meaning. -/

namespace Sys2Proof.Machine

theorem respond_eq (len : BitVec 4) (data : Word) (s : State) :
    respond len data s = .next (s.answered (Response.success len data) []) := rfl

theorem raise_eq (c : Cause) (s : State) : raise c s = .next (s.answered (Response.error c) []) := rfl

theorem Response.success_wellShaped (len : BitVec 4) (data : Word) : (Response.success len data).WellShaped :=
  ⟨rfl, fun h => absurd rfl h⟩

theorem Response.error_wellShaped (c : Cause) : (Response.error c).WellShaped :=
  ⟨rfl, fun _ => ⟨rfl, rfl⟩⟩

theorem messageAddresses_lt (c : Config) (x len : Word) : ∀ a ∈ messageAddresses c x len, a < 2 ^ c.addrBits := by
  intro a ha
  obtain ⟨k, -, rfl⟩ := List.mem_map.1 ha
  exact Nat.mod_lt _ (by positivity)

/-- Everything `compute` can do: the engine's absence, the data's absence, or one answer over the whole message. -/
theorem compute_cases (form : Engine → BitVec 4) (present : Bool) (base len : Word) (s : State) :
    (s.eng = none ∧ compute form present base len s = raise .engineAbsent s) ∨
    (∃ e, s.eng = some e ∧ present = false ∧ compute form present base len s = raise .dataAbsent s) ∨
    (∃ e, s.eng = some e ∧ present = true ∧
      compute form present base len s =
        .next (s.answered (Response.success (form e) (e.check s.config.narrowRule (message s base len)))
          (messageAddresses s.config base len))) := by
  unfold compute
  cases h : s.eng with
  | none => exact .inl ⟨rfl, rfl⟩
  | some e =>
    cases present
    · exact .inr (.inl ⟨e, rfl, rfl, rfl⟩)
    · exact .inr (.inr ⟨e, rfl, rfl, rfl⟩)

/-- CFG's checks that pass (R82, R83). -/
theorem cfgError_eq_none {width : Byte} {poly init xorout : Word} (h : cfgError width poly init xorout = none) :
    2 ≤ width.toNat ∧ width.toNat ≤ 64 ∧ poly ≤ mask width.toNat ∧ init ≤ mask width.toNat ∧
      xorout ≤ mask width.toNat := by
  unfold cfgError at h
  split at h
  · contradiction
  · split at h
    · contradiction
    · split at h
      · contradiction
      · split at h
        · contradiction
        · rename_i hw hp hi hx
          have := mask_le_of_not_lt hp
          have := mask_le_of_not_lt hi
          have := mask_le_of_not_lt hx
          exact ⟨by omega, by omega, by assumption, by assumption, by assumption⟩

/-- The 7-bit copy of a width that passed the check is the width (R21, R84). -/
theorem toNat_setWidth_width {width : Byte} (h : width.toNat ≤ 64) : (width.setWidth 7).toNat = width.toNat := by
  rw [BitVec.toNat_setWidth]
  omega

/-- The parameter set a successful CFG writes. -/
def cfgParams (width : Byte) (poly init xorout : Word) (refin refout : Bool) : ParamSet :=
  { width := width.setWidth 7, poly := poly, init := init, xorout := xorout, refin := refin, refout := refout }

theorem cfgParams_valid {width : Byte} {poly init xorout : Word} (refin refout : Bool)
    (h : cfgError width poly init xorout = none) : (cfgParams width poly init xorout refin refout).Valid := by
  obtain ⟨h2, h64, hp, hi, hx⟩ := cfgError_eq_none h
  have hw : (cfgParams width poly init xorout refin refout).w = width.toNat := toNat_setWidth_width h64
  exact ⟨by omega, by omega, by rw [hw]; exact hp, by rw [hw]; exact hi, by rw [hw]; exact hx⟩

/-- Everything `exec` can do: answer and leave every slot alone, or write `PS` whole (a CFG whose checks pass), or write
`ENG` whole from `PS` (a BUILD with a parameter set). -/
theorem exec_cases (i : Instr) (s : State) :
    (∃ r l, r.WellShaped ∧ (∀ a ∈ l, a < 2 ^ s.config.addrBits) ∧ exec i s = .next (s.answered r l)) ∨
    (∃ width poly init xorout refin refout, i = .cfg width poly init xorout refin refout ∧
      cfgError width poly init xorout = none ∧
      exec i s = respond 0 0 { s with ps := some (cfgParams width poly init xorout refin refout) }) ∨
    (∃ p, i = .build ∧ s.ps = some p ∧
      exec i s = respond 0 0 { s with eng := some (newEngine s.config.narrowRule p) }) := by
  have answers : ∀ len data, ∃ r l, r.WellShaped ∧ (∀ a ∈ l, a < 2 ^ s.config.addrBits) ∧
      respond len data s = .next (s.answered r l) := fun len data =>
    ⟨_, [], Response.success_wellShaped len data, by simp, rfl⟩
  have raises : ∀ c, ∃ r l, r.WellShaped ∧ (∀ a ∈ l, a < 2 ^ s.config.addrBits) ∧
      raise c s = .next (s.answered r l) := fun c => ⟨_, [], Response.error_wellShaped c, by simp, rfl⟩
  have computes : ∀ form p base len, ∃ r l, r.WellShaped ∧ (∀ a ∈ l, a < 2 ^ s.config.addrBits) ∧
      compute form p base len s = .next (s.answered r l) := by
    intro form p base len
    rcases compute_cases form p base len s with ⟨-, h⟩ | ⟨e, -, -, h⟩ | ⟨e, -, -, h⟩
    · rw [h]; exact raises _
    · rw [h]; exact raises _
    · exact ⟨_, _, Response.success_wellShaped _ _, messageAddresses_lt _ _ _, h⟩
  cases i with
  | nop => exact .inl (answers 0 0)
  | cfg width poly init xorout refin refout =>
    cases h : cfgError width poly init xorout with
    | some c =>
      have : exec (.cfg width poly init xorout refin refout) s = raise c s := by simp only [exec, execCfg, h]
      rw [this]; exact .inl (raises c)
    | none =>
      refine .inr (.inl ⟨width, poly, init, xorout, refin, refout, rfl, h, ?_⟩)
      simp only [exec, execCfg, h]; rfl
  | build =>
    cases h : s.ps with
    | none =>
      have : exec .build s = raise .paramsAbsent s := by simp only [exec, execBuild, h]
      rw [this]; exact .inl (raises _)
    | some p =>
      refine .inr (.inr ⟨p, rfl, rfl, ?_⟩)
      simp only [exec, execBuild, h]
  | compn p base len => exact .inl (computes _ p base len)
  | compb p base len => exact .inl (computes _ p base len)
  | rdtbl idx =>
    cases h : s.eng with
    | none =>
      have : exec (.rdtbl idx) s = raise .engineAbsent s := by simp only [exec, execRdtbl, h]
      rw [this]; exact .inl (raises _)
    | some e =>
      have : exec (.rdtbl idx) s = respond 8 (e.lookup idx) s := by simp only [exec, execRdtbl, h]
      rw [this]; exact .inl (answers _ _)
  | rdst => exact .inl (answers 8 _)
  | rdprm bank field =>
    cases h : s.bank bank with
    | none =>
      have : exec (.rdprm bank field) s = raise (absentCause bank) s := by simp only [exec, execRdprm, h]
      rw [this]; exact .inl (raises _)
    | some p =>
      have : exec (.rdprm bank field) s = respond 8 (p.field field) s := by simp only [exec, execRdprm, h]
      rw [this]; exact .inl (answers _ _)
  | reserved op => exact .inl (raises .reservedOp)

/-! ## The ports and the step -/

/-- The first word presented is accepted where no response waits. -/
theorem State.accepted_of {s : State} {p : Presentation} {ps : List Presentation} (h : s.presented = p :: ps)
    (hr : s.rsp = none) : s.accepted = some (p, { s with presented := ps }) := by
  simp [State.accepted, State.accepting, h, hr]

/-- What a command that is accepted was, and what it leaves. -/
theorem State.accepted_eq_some {s t : State} {p : Presentation} (h : s.accepted = some (p, t)) :
    ∃ ps, s.presented = p :: ps ∧ s.rsp = none ∧ t = { s with presented := ps } := by
  unfold State.accepted at h
  split at h
  · cases h
  · next ps hp =>
    split at h
    · next ha => cases h; exact ⟨ps, hp, by simpa [State.accepting] using ha, rfl⟩
    · cases h

/-- No command is accepted exactly where none is presented or a response waits. -/
theorem State.accepted_eq_none {s : State} : s.accepted = none ↔ s.presented = [] ∨ s.rsp ≠ none := by
  unfold State.accepted
  split
  · simp [*]
  · cases h : s.rsp <;> simp [State.accepting, *]

/-- Everything a move of the host can do: present a word, write a byte of MSG, take the response, or apply reset. -/
theorem hostAct_cases (s : State) :
    (s.host = [] ∧ hostAct s = s) ∨
    ∃ rest, (∃ p, (s.host = .command p.word :: rest ∨ s.host = .resetDuring p.word :: rest) ∧
        hostAct s = present p { s with host := rest }) ∨
      (∃ a b, s.host = .write a b :: rest ∧ hostAct s = hostWrite a b { s with host := rest }) ∨
      (s.host = .take :: rest ∧ hostAct s = takeResponse { s with host := rest }) ∨
      (s.host = .reset :: rest ∧ hostAct s = applyReset { s with host := rest }) := by
  unfold hostAct
  cases h : s.host with
  | nil => exact .inl ⟨rfl, rfl⟩
  | cons m rest =>
    refine .inr ⟨rest, ?_⟩
    cases m with
    | command w => exact .inl ⟨⟨w, false⟩, .inl rfl, rfl⟩
    | write a b => exact .inr (.inl ⟨a, b, rfl, rfl⟩)
    | take => exact .inr (.inr (.inl ⟨rfl, rfl⟩))
    | reset => exact .inr (.inr (.inr ⟨rfl, rfl⟩))
    | resetDuring w => exact .inl ⟨⟨w, true⟩, .inr rfl, rfl⟩

/-- The step of a presented command that is accepted and not cut short. -/
theorem step_of_presented {s : State} {w : CommandWord} {ps : List Presentation} (h : s.presented = ⟨w, false⟩ :: ps)
    (hr : s.rsp = none) : step s = exec (decode w) { s with presented := ps } := by
  simp [step, State.accepted_of h hr]

/-- The step where no command is accepted. -/
theorem step_of_not_accepted {s : State} (h : s.presented = [] ∨ s.rsp ≠ none) : step s = .next (hostAct s) := by
  simp [step, State.accepted_eq_none.2 h]

/-- Everything `step` can do: run a command that is accepted, cut it short by reset, or let the host move. -/
theorem step_cases (s : State) :
    (∃ w ps, s.presented = ⟨w, false⟩ :: ps ∧ s.rsp = none ∧ step s = exec (decode w) { s with presented := ps }) ∨
    (∃ w ps, s.presented = ⟨w, true⟩ :: ps ∧ s.rsp = none ∧
      step s = .next (applyReset { s with presented := ps })) ∨
    ((s.presented = [] ∨ s.rsp ≠ none) ∧ step s = .next (hostAct s)) := by
  cases h : s.accepted with
  | none => exact .inr (.inr ⟨State.accepted_eq_none.1 h, by simp only [step, h]⟩)
  | some pt =>
    obtain ⟨⟨w, cut⟩, t⟩ := pt
    obtain ⟨ps, hp, hr, rfl⟩ := State.accepted_eq_some h
    cases cut with
    | false => exact .inl ⟨w, ps, hp, hr, by simp [step, h]⟩
    | true => exact .inr (.inl ⟨w, ps, hp, hr, by simp [step, h]⟩)

/-- A run of `k + 1` steps is a step and a run of `k`. -/
theorem core_run_succ {s t : State} (k : Nat) (h : step s = .next t) :
    Sys2Proof.core.run (k + 1) s = Sys2Proof.core.run k t := by
  have run_succ : ∀ (M : Host.Core) (s t : M.State), M.step s = .next t → M.run (k + 1) s = M.run k t := by
    intro M s t h
    simp only [Host.Core.run, h]
  exact run_succ Sys2Proof.core s t h

end Sys2Proof.Machine
end

