-- ==== Sys2Proof/Laws/PerInstr.lean ====
section
/-! SUPPORT. The family `EncodeOp`, one lemma per constructor: the encoding of a command carries its opcode in bits 3:0
(spec/30_encoding.md R61, R64). -/

namespace Sys2Proof.Laws.EncodeOp

/-- The encoding's opcode field is the opcode of R64's map. -/
def Statement (i : Instr) : Prop := (encode i).op = i.opcode

theorem nop : Statement .nop := CommandWord.op_pack ..
theorem cfg (width : Byte) (poly init xorout : Word) (refin refout : Bool) :
    Statement (.cfg width poly init xorout refin refout) := CommandWord.op_pack ..
theorem build : Statement .build := CommandWord.op_pack ..
theorem compn (present : Bool) (base len : Word) : Statement (.compn present base len) := CommandWord.op_pack ..
theorem compb (present : Bool) (base len : Word) : Statement (.compb present base len) := CommandWord.op_pack ..
theorem rdtbl (idx : Byte) : Statement (.rdtbl idx) := CommandWord.op_pack ..
theorem rdst : Statement .rdst := CommandWord.op_pack ..
theorem rdprm (bank : Bank) (field : ParamField) : Statement (.rdprm bank field) := CommandWord.op_pack ..
theorem reserved (op : BitVec 4) : Statement (.reserved op) := CommandWord.op_pack ..

end Sys2Proof.Laws.EncodeOp
end

