-- ==== Sys2Proof/Tests/Slice0.lean ====
section
/-! SUPPORT. Tests of the model on the vectors of spec/95_test_vectors.md, the smoke test of `wellFormed`, and a witness
for the hypotheses of every statement that has some. -/

namespace Sys2Proof.Tests

open Sys2Proof.Machine

/-! ## Helpers -/

/-- The response a result leaves on the port. -/
def rspOf : Result → Option Response
  | .next t => t.rsp
  | .fault _ => none
  | .refused _ => none

/-- What a projection of a result's state is. -/
def field {α : Type} (f : State → α) : Result → Option α
  | .next t => some (f t)
  | .fault _ => none
  | .refused _ => none

/-- The bytes of "123456789" from address 0x100 (section 3, P1). -/
def msg9 : Memory :=
  [(0x100, 0x31), (0x101, 0x32), (0x102, 0x33), (0x103, 0x34), (0x104, 0x35), (0x105, 0x36), (0x106, 0x37),
    (0x107, 0x38), (0x108, 0x39)]

/-- A state with a parameter set in `PS` and the engine of one in `ENG`. -/
def withEngine (p e : ParamSet) (m : Memory) : State :=
  { State.reset with ps := some p, eng := some (newEngine .scaled8 e), msg := m }

def crc8 : ParamSet := { width := 8, poly := 0x07, init := 0, xorout := 0, refin := false, refout := false }
def crc12 : ParamSet := { width := 12, poly := 0x80F, init := 0, xorout := 0, refin := false, refout := true }
def crc16 : ParamSet := { width := 16, poly := 0x1021, init := 0, xorout := 0, refin := false, refout := false }
def crc32 : ParamSet :=
  { width := 32, poly := 0x04C11DB7, init := 0xFFFFFFFF, xorout := 0xFFFFFFFF, refin := true, refout := true }
def crc5 : ParamSet := { width := 5, poly := 0x05, init := 0x1F, xorout := 0x1F, refin := true, refout := true }

/-! ## Well-formedness and decoding -/

/-- R65 clause 1: a reserved command with an opcode of the map is refused. -/
theorem test_wellFormed_refuses_op7 : (Instr.reserved 7).wellFormed = false := by decide
theorem test_wellFormed_accepts_op8 : (Instr.reserved 8).wellFormed = true := by decide

/-- Section 2.7's words, one for each constructor. -/
theorem test_decode_nop : decodeTableWord 208 0 = some .nop := by decide
theorem test_decode_cfg :
    decodeTableWord 208 0x00000000FFFFFFFF00000000FFFFFFFF0000000004C11DB72031 =
      some (.cfg 32 0x04C11DB7 0xFFFFFFFF 0xFFFFFFFF true true) := by decide
theorem test_decode_build : decodeTableWord 208 2 = some .build := by decide
theorem test_decode_compn :
    decodeTableWord 208 0x0000000000000000000000000000000900000000000001000013 = some (.compn true 0x100 9) := by
  decide
theorem test_decode_compb :
    decodeTableWord 208 0x0000000000000000000000000000000900000000000001000014 = some (.compb true 0x100 9) := by
  decide
theorem test_decode_rdtbl : decodeTableWord 208 0xFF05 = some (.rdtbl 255) := by decide
theorem test_decode_rdst : decodeTableWord 208 6 = some .rdst := by decide
theorem test_decode_rdprm : decodeTableWord 208 0x0407 = some (.rdprm .eng .poly) := by decide
theorem test_decode_reserved : decodeTableWord 208 9 = some (.reserved 9) := by decide
theorem test_decode_all_ones : decodeTableWord 208 (2 ^ 208 - 1) = some (.reserved 15) := by decide

/-- R61: 209 bits are no command word. -/
theorem test_decode_too_long : decodeBits 209 0 = .error (.tooLong 209) := by rfl

/-- Section 2.7: a COMPN with every ignored bit set. -/
theorem test_decode_ignored_bits :
    decode 0x00000000DEADBEEF00000000000000090000000000000100ABF3 = .compn true 0x100 9 := by decide

theorem test_encode_cfg12 : encode (.cfg 12 0x80F 0 0 false true) = 0x080F0C21 := by decide

/-- Section 2.7's response records. -/
theorem test_record_ok8 : (Response.success 8 0x995DC9BBDF1939FA).bits = 0x2657726EF7C64E7EA00 := by decide
theorem test_record_ok2 : (Response.success 2 0x31C3).bits = 0xC70C80 := by decide
theorem test_record_xorout : (Response.error .xoroutRange).bits = 0x11 := by decide
theorem test_record_engineAbsent : (Response.error .engineAbsent).bits = 0x1E := by decide
theorem test_record_reservedOp : (Response.error .reservedOp).bits = 0x23 := by decide

/-! ## The units (sections 2.1 to 2.4) -/

theorem test_mask_12 : mask 12 = 0xFFF := by decide
theorem test_mask_64 : mask 64 = 0xFFFFFFFFFFFFFFFF := by decide
theorem test_reflect_16 : reflect 0x1021 16 = 0x8408 := by decide
theorem test_reflect_ignores_high_bits : reflect 0x1F1 8 = 0x8F := by decide
theorem test_tableEntry_wide : tableEntry .scaled8 8 0x07 false 0x80 = 0x89 := by decide
theorem test_tableEntry_reflected : tableEntry .scaled8 32 0x04C11DB7 true 1 = 0x77073096 := by decide
theorem test_tableEntry_narrow : tableEntry .scaled8 5 0x09 false 0x80 = 0x1E := by decide
theorem test_tableEntry_narrow_reflected : tableEntry .scaled8 2 0x3 true 0x04 = 0x1 := by decide

/-! ## Commands, one step each -/

theorem test_nop : rspOf (exec .nop State.reset) = some (Response.success 0 0) := by decide

/-- P3 line 9 and section 2.1. -/
theorem test_cfg_xorout_range :
    rspOf (exec (.cfg 8 0x07 0 0x100 false false) State.reset) = some (Response.error .xoroutRange) := by decide
theorem test_cfg_writes_ps :
    field State.ps (exec (.cfg 12 0x80F 0 0 false true) State.reset) = some (some crc12) := by decide

theorem test_build_absent : rspOf (exec .build State.reset) = some (Response.error .paramsAbsent) := by decide

/-- K2 and section 2.3: entry 0x31 of the engine BUILD makes. -/
theorem test_build_entry :
    field (fun t => t.eng.map (fun e => e.lookup 0x31)) (exec .build { State.reset with ps := some crc16 }) =
      some (some 0x2672) := by decide

/-- K2. -/
theorem test_compn_k2 :
    rspOf (exec (.compn true 0x100 9) (withEngine crc16 crc16 msg9)) = some (Response.success 8 0x31C3) := by
  decide +kernel

/-- Section 2.6: the engine is checked before the data. -/
theorem test_compn_engine_first :
    rspOf (exec (.compn false 0 0) State.reset) = some (Response.error .engineAbsent) := by decide

/-- P3 line 28 (K5): the final reflection, and two bytes. -/
theorem test_compb_k5 :
    rspOf (exec (.compb true 0x100 9) (withEngine crc12 crc12 msg9)) = some (Response.success 2 0xDAF) := by
  decide +kernel

/-- P4 line 4: AW = 8, the address wraps, width 5. -/
theorem test_compb_wraps :
    rspOf (exec (.compb true 0x1FC 9)
      { withEngine crc5 crc5
          [(0, 0x35), (1, 0x36), (2, 0x37), (3, 0x38), (4, 0x39), (0xFC, 0x31), (0xFD, 0x32), (0xFE, 0x33), (0xFF, 0x34)]
        with config := { addrBits := 8, narrowRule := .scaled8 } }) = some (Response.success 1 0x19) := by
  decide +kernel

/-- P2 line 4. -/
theorem test_rdtbl_255 :
    rspOf (exec (.rdtbl 255) (withEngine crc32 crc32 [])) = some (Response.success 8 0x2D02EF8D) := by
  decide

theorem test_rdst_both : rspOf (exec .rdst (withEngine crc8 crc8 [])) = some (Response.success 8 3) := by decide

/-- P3 lines 21 and 22: the two banks after a CFG that was not followed by BUILD. -/
theorem test_rdprm_ps_ctrl :
    rspOf (exec (.rdprm .ps .ctrl) (withEngine crc12 crc8 [])) = some (Response.success 8 0x20C) := by decide
theorem test_rdprm_eng_ctrl :
    rspOf (exec (.rdprm .eng .ctrl) (withEngine crc12 crc8 [])) = some (Response.success 8 0x008) := by decide

theorem test_reserved : rspOf (exec (.reserved 9) State.reset) = some (Response.error .reservedOp) := by decide

/-- A table word is the first thing that runs after reset. -/
theorem test_step_fetches :
    rspOf (step (State.reset.withFetchWord 208 0x0007)) = some (Response.error .paramsAbsent) := by decide

/-- R70: SETUP is two commands; an index above 255 is not encodable. -/
theorem test_assemble_setup : (AsmLine.setup 8 7 0 0 0 0).assemble = some [0x070801, 0x02] := by decide
theorem test_assemble_rdtbl_256 : (AsmLine.rdtbl 256).assemble = none := by decide

/-- Section 2.7's word of `CFG 12, 0x80F, 0, 0, 0, 1`, from its characters. -/
theorem test_assembleText_cfg :
    assembleText "CFG  12, 0x80F, 0, 0, 0, 1  ; K5".toList = some [0x080F0C21] := by decide
theorem test_assembleText_sel : assembleText "RDPRM ENG.POLY".toList = some [0x0407] := by decide

/-- A write keeps the addresses rising, and replaces the byte that was there. -/
theorem test_memory_write_inserts : Memory.write [(3, 1), (5, 2)] 4 0 = [(3, 1), (4, 0), (5, 2)] := by decide
theorem test_memory_write_replaces : Memory.write [(3, 1), (5, 2)] 5 9 = [(3, 1), (5, 9)] := by decide

/-- R175: a command presented while a response waits runs after the host has taken the response. -/
theorem test_waiting_command_runs :
    rspOf (Sys2Proof.core.run 3
      { State.reset with rsp := some (Response.success 0 0), host := [.command 0x06, .take] }) =
      some (Response.success 8 0) := by decide

/-! ## Witnesses: states and operands that meet the hypotheses of each statement together -/

theorem crc8_valid : crc8.Valid := ⟨by decide, by decide, by decide, by decide, by decide⟩
theorem crc12_valid : crc12.Valid := ⟨by decide, by decide, by decide, by decide, by decide⟩
theorem crc32_valid : crc32.Valid := ⟨by decide, by decide, by decide, by decide, by decide⟩
theorem crc5_valid : crc5.Valid := ⟨by decide, by decide, by decide, by decide, by decide⟩

/-- A state with a parameter set, another engine, a message, and the host's moves `h` to come. -/
def demo (h : List HostMove) : State := { withEngine crc12 crc8 msg9 with host := h }

/-- The same with the words `l` presented. -/
def shown (l : List Presentation) (h : List HostMove) : State := { demo h with presented := l }

theorem msg9_fits : msg9.Fits Config.default := ⟨by decide, by decide⟩

theorem demo_fits (h : List HostMove) : (demo h).msg.Fits (demo h).config := msg9_fits

theorem demo_inv (h : List HostMove) : (demo h).Inv where
  config := by show Config.default.InRange; decide
  ps p hp := by cases hp; exact crc12_valid
  eng e he := by cases he; exact newEngine_valid _ crc8_valid
  eng_needs_ps _ := rfl
  msg := demo_fits h
  reads := by intro a ha; cases ha
  rsp := by intro r hr; cases hr

theorem witness_DecodeEncodeRoundTrip :
    (Instr.reserved 8).wellFormed = true ∧ (Instr.cfg 255 1 2 3 true false).wellFormed = true := by decide

/-- One word of each opcode of the map, and the first and the last reserved opcode. -/
theorem witness_OpcodeSelectsCommand :
    CommandWord.op 0 = 0 ∧ CommandWord.op 0x070801 = 1 ∧ CommandWord.op 0x02 = 2 ∧ CommandWord.op 0x13 = 3 ∧
    CommandWord.op 0x14 = 4 ∧ CommandWord.op 0x0105 = 5 ∧ CommandWord.op 0x06 = 6 ∧ CommandWord.op 0x0707 = 7 ∧
    8 ≤ (CommandWord.op 0x08).toNat ∧ 8 ≤ (CommandWord.op 0x0F).toNat := by decide

theorem witness_IgnoredBitsHaveNoEffect :
    ∃ r ∈ opcodeRows, ∃ w v : CommandWord, r.owns w = true ∧ w &&& r.reads = v &&& r.reads ∧ w ≠ v :=
  ⟨⟨"COMPN", 0xF, 0x3, formatMBits⟩, by decide,
    0x0000000000000000000000000000000900000000000001000013,
    0x00000000DEADBEEF00000000000000090000000000000100ABF3, by decide⟩

theorem witness_StepRunsDecodedCommand :
    (shown [⟨0x0407, false⟩] []).presented = ⟨0x0407, false⟩ :: [] ∧ (shown [⟨0x0407, false⟩] []).rsp = none ∧
      decode 0x0407 = .rdprm .eng .poly ∧ (Instr.rdprm .eng .poly).wellFormed = true := by
  exact ⟨rfl, rfl, by decide, rfl⟩

theorem witness_FetchWordRunsNext :
    208 ≤ 208 ∧ decodeTableWord 208 0x0407 = some (.rdprm .eng .poly) ∧ decodeTableWord 8 2 = some .build := by decide

/-- A word presented while a response waits, and a response waiting while the host still has moves. -/
def waiting (h : List HostMove) : State :=
  { shown [⟨0x06, false⟩] h with rsp := some (Response.success 0 0) }

theorem witness_PortWaitsForTheHost :
    State.reset.presented = [] ∧ State.reset.host = [] ∧
    ((waiting [.command 0]).rsp ≠ none ∧ (waiting [.command 0]).host = .command 0 :: []) ∧
    ((waiting [.resetDuring 2]).rsp ≠ none ∧ (waiting [.resetDuring 2]).host = .resetDuring 2 :: []) ∧
    ((demo [.take]).presented = [] ∧ (demo [.take]).host = .take :: []) ∧
    (waiting []).rsp = some (Response.success 0 0) := ⟨rfl, rfl, ⟨nofun, rfl⟩, ⟨nofun, rfl⟩, ⟨rfl, rfl⟩, rfl⟩

/-- The host takes the response in one, and applies reset in the other. -/
theorem witness_WaitingCommandIsAccepted :
    (waiting [.command 0, .take]).presented = ⟨0x06, false⟩ :: [] ∧ .take ∈ (waiting [.command 0, .take]).host ∧
    (waiting [.reset]).presented = ⟨0x06, false⟩ :: [] ∧ .reset ∈ (waiting [.reset]).host :=
  ⟨rfl, by decide, rfl, by decide⟩

theorem witness_OneResponsePerCommand :
    (shown [⟨0, false⟩] [.take]).presented = ⟨0, false⟩ :: [] ∧ (shown [⟨0, false⟩] [.take]).rsp = none ∧
      (shown [⟨0, false⟩] [.take]).host = .take :: [] := ⟨rfl, rfl, rfl⟩

theorem witness_HostWriteReadsBack :
    (demo [.write 0x104 7]).msg.Fits (demo [.write 0x104 7]).config ∧ (demo [.write 0x104 7]).presented = [] ∧
      (demo [.write 0x104 7]).host = .write 0x104 7 :: [] := ⟨demo_fits _, rfl, rfl⟩

theorem witness_ResetClearsValidBits :
    ((demo [.reset]).presented = [] ∧ (demo [.reset]).host = .reset :: []) ∧
    ∃ t, step (demo [.reset]) = .next t ∧ ((demo [.reset]).psValid = true ∧ t.psValid = false) ∧
      (demo [.reset]).engValid = true ∧ t.engValid = false := ⟨⟨rfl, rfl⟩, _, rfl, ⟨rfl, rfl⟩, rfl, rfl⟩

theorem witness_ResetDuringCommandIsReset : (shown [⟨2, true⟩] []).presented = ⟨2, true⟩ :: [] ∧
    (shown [⟨2, true⟩] []).rsp = none := ⟨rfl, rfl⟩

theorem witness_StepKeepsInvariant : (demo [.take]).Inv ∧ ∃ t, step (demo [.take]) = .next t :=
  ⟨demo_inv _, _, rfl⟩

theorem witness_CommandFrame : ∃ t, exec .rdst (demo []) = .next t ∧ Instr.rdst ≠ .build ∧
    ∀ width poly init xorout refin refout, Instr.rdst ≠ .cfg width poly init xorout refin refout :=
  ⟨_, rfl, by decide, by intros; exact nofun⟩

/-- A step that changes `PS` (CFG after reset), and one that changes `ENG` (BUILD with no engine). -/
theorem witness_OnlyCfgBuildAndResetChangeSlots :
    (∃ t, step { State.reset with presented := [⟨0x070801, false⟩] } = .next t ∧ t.ps ≠ State.reset.ps) ∧
    ∃ t, step { State.reset with ps := some crc8, presented := [⟨2, false⟩] } = .next t ∧ t.eng ≠ State.reset.eng := by
  refine ⟨⟨_, rfl, ?_⟩, ⟨_, rfl, ?_⟩⟩ <;> exact nofun

/-- BUILD raises, the host takes its response, and another word waits. -/
theorem witness_RaisingHasNoEffect :
    (∃ t r, exec .build { State.reset with presented := [⟨0x06, false⟩], host := [.take] } = .next t ∧ t.rsp = some r ∧
      r.code ≠ .ok) ∧
    ({ State.reset with presented := [⟨0x06, false⟩], host := [.take] }).host = .take :: [] ∧
    ({ State.reset with presented := [⟨0x06, false⟩], host := [.take] }).presented = ⟨0x06, false⟩ :: [] :=
  ⟨⟨_, _, rfl, rfl, by decide⟩, rfl, rfl⟩

/-- FailedCommandLeavesNoTrace has the hypotheses of RaisingHasNoEffect. -/
theorem witness_FailedCommandLeavesNoTrace :
    ∃ t r, exec (.compn false 0 0) (demo []) = .next t ∧ t.rsp = some r ∧ r.code ≠ .ok :=
  ⟨_, _, rfl, rfl, by decide⟩

theorem witness_ReadingCommandLeavesNoTrace : (Instr.compn true 0x100 9).opcode ≠ 1 ∧
    (Instr.compn true 0x100 9).opcode ≠ 2 ∧ (Instr.compn true 0x100 9).wellFormed = true ∧
    ∃ t, exec (.compn true 0x100 9) (demo []) = .next t := ⟨by decide, by decide, rfl, _, rfl⟩

theorem witness_OnlyComputeReadsMessage : (∀ p base len, Instr.build ≠ .compn p base len) ∧
    ∀ p base len, Instr.build ≠ .compb p base len := ⟨nofun, nofun⟩

theorem witness_ComputeIgnoresPsAndPoly : ∃ e, (demo []).eng = some e ∧
    (Instr.compb true 0x100 9 = .compn true 0x100 9 ∨ Instr.compb true 0x100 9 = .compb true 0x100 9) :=
  ⟨_, rfl, .inr rfl⟩

theorem witness_ErrorConditionsAreComplete : ∃ t r, exec (.rdprm .eng .poly) State.reset = .next t ∧ t.rsp = some r :=
  ⟨_, _, rfl, rfl⟩

/-- Both ends of the range of widths. -/
theorem witness_CfgAcceptsEveryValidSet :
    (2 ≤ (2 : Byte).toNat ∧ (2 : Byte).toNat ≤ 64 ∧ (3 : Word) ≤ mask (2 : Byte).toNat) ∧
    2 ≤ (64 : Byte).toNat ∧ (64 : Byte).toNat ≤ 64 ∧ (-1 : Word) ≤ mask (64 : Byte).toNat := by decide

theorem witness_CfgChecksWidth : (1 : Byte).toNat < 2 ∧ 64 < (65 : Byte).toNat ∧
    (2 ≤ (2 : Byte).toNat ∧ (2 : Byte).toNat ≤ 64) ∧ 2 ≤ (64 : Byte).toNat ∧ (64 : Byte).toNat ≤ 64 := by decide

theorem witness_CfgChecksValues : (2 ≤ (8 : Byte).toNat ∧ (8 : Byte).toNat ≤ 64 ∧ (0x100 : Word) > mask 8) ∧
    ∃ r, rspOf (exec (.cfg 8 0xFF 0 0 false false) State.reset) = some r ∧ r.code ≠ .invalidArgument :=
  ⟨by decide, _, rfl, by decide⟩

/-- One value just above the mask at each position of the order (section 2.1). -/
theorem witness_CfgReportsFirstFailure : (0 : Byte).toNat < 2 ∧ (2 ≤ (8 : Byte).toNat ∧ (8 : Byte).toNat ≤ 64) ∧
    (0x100 : Word) > mask (8 : Byte).toNat ∧ (0xFF : Word) ≤ mask (8 : Byte).toNat := by decide

theorem witness_CfgDoesNotRebuild : (∃ t, exec (.cfg 16 0x1021 0 0 false false) (demo []) = .next t) ∧
    (Instr.rdtbl 1 = .rdtbl 1) := ⟨⟨_, rfl⟩, rfl⟩

theorem witness_MaskIsOnesBelowWidth : (1 ≤ 1 ∧ 1 ≤ 64 ∧ 0 < 1 ∧ 1 ≤ 63) ∧ 1 ≤ 64 ∧ 64 ≤ 64 ∧ 63 < 64 := by decide

theorem witness_ReflectReversesBits : (1 ≤ 1 ∧ 1 ≤ 64 ∧ 0 < 1 ∧ 1 ≤ 63) ∧ 1 ≤ 64 ∧ 64 ≤ 64 ∧ 63 < 64 := by decide

theorem witness_ReflectLaws : 1 ≤ 12 ∧ 12 ≤ 64 ∧ (0x80F : Word) ≤ mask 12 := by decide

theorem witness_BuildConstructsEngine : (demo []).ps = some crc12 ∧ State.reset.ps = none := ⟨rfl, rfl⟩

theorem witness_RebuildReproducesEngine : ∃ t, exec .build (demo []) = .next t := ⟨_, rfl⟩

theorem witness_TableEntryEqualsPlain :
    (2 ≤ 2 ∧ 2 ≤ 64 ∧ (3 : Word) ≤ mask 2) ∧ 2 ≤ 64 ∧ 64 ≤ 64 ∧ (0x42F0E1EBA9EA3693 : Word) ≤ mask 64 := by decide

theorem witness_TableProperties : 2 ≤ 7 ∧ 7 ≤ 64 ∧ (9 : Word) ≤ mask 7 := by decide

theorem witness_WidthBitRegisterIsEnough :
    (8 ≤ 8 ∧ 8 ≤ 64 ∧ (7 : Word) ≤ mask 8) ∧ 8 ≤ 64 ∧ 64 ≤ 64 ∧ (-1 : Word) ≤ mask 64 := by decide

theorem witness_RdtblAnswersEntry : (∃ e, (demo []).eng = some e ∧ (demo []).Inv ∧ e.params.width.toNat ≤ 8 ∧ 8 ≤ 63) ∧
    State.reset.eng = none := ⟨⟨_, rfl, demo_inv _, by decide, by decide⟩, rfl⟩

theorem witness_ComputeChecksInOrder : State.reset.eng = none ∧ ∃ e, (demo []).eng = some e := ⟨rfl, _, rfl⟩

/-- The three byte steps and the two cases of the final reflection. -/
theorem witness_CheckFollowsByteSteps :
    crc32.refin = true ∧ (crc8.refin = false ∧ 8 ≤ crc8.width.toNat) ∧
    ({ crc5 with refin := false }.refin = false ∧ { crc5 with refin := false }.width.toNat ≤ 7) ∧
    crc12.refin ≠ crc12.refout ∧ crc8.refin = crc8.refout := by decide

theorem witness_MessageIsReadOnceInOrder : ∃ e, (demo []).eng = some e ∧
    (Instr.compn true 0x100 9 = .compn true 0x100 9 ∨ Instr.compn true 0x100 9 = .compb true 0x100 9) ∧
    8 < (9 : Word).toNat := ⟨_, rfl, .inl rfl, by decide⟩

/-- Section 3, P4 line 6: `x[63:8]` ignored when `AW = 8`. -/
theorem witness_BaseAboveAddressBitsIgnored :
    (0xFC : Word).toNat % 2 ^ 8 = (0x1FC : Word).toNat % 2 ^ 8 ∧
    ({ demo [] with config := { addrBits := 8, narrowRule := .scaled8 } }).config.addrBits = 8 := by decide

theorem witness_ComputeAnswersCheckValue : ∃ e, (demo []).eng = some e ∧ 2 ≤ e.params.width.toNat ∧
    e.params.width.toNat ≤ 64 := ⟨_, rfl, by decide, by decide⟩

theorem witness_ResultFormsAgree : (demo []).Inv ∧ ∃ e, (demo []).eng = some e := ⟨demo_inv _, _, rfl⟩

/-- Valid engines at a wide reflected, a wide plain and a narrow width. -/
theorem witness_RegisterStaysInMask : (newEngine .scaled8 crc32).Valid .scaled8 ∧
    (newEngine .scaled8 crc12).Valid .scaled8 ∧ (newEngine .scaled8 crc5).Valid .scaled8 :=
  ⟨newEngine_valid _ crc32_valid, newEngine_valid _ crc12_valid, newEngine_valid _ crc5_valid⟩

theorem witness_CheckEqualsBitSerial : (newEngine .scaled8 crc32).Valid .scaled8 := newEngine_valid _ crc32_valid

theorem witness_EmptyMessageCheckValue : (demo []).Inv ∧ ∃ e, (demo []).eng = some e := ⟨demo_inv _, _, rfl⟩

theorem witness_RdstAnswersValidBits : (demo []).Inv := demo_inv _

theorem witness_RdprmAnswersField :
    (Bank.ps = .ps ∧ (demo []).ps = some crc12) ∧
    (Bank.eng = .eng ∧ ∃ e, (demo []).eng = some e ∧ e.params = crc8) ∧
    State.reset.ps = none ∧ State.reset.eng = none := ⟨⟨rfl, rfl⟩, ⟨rfl, _, rfl, rfl⟩, rfl, rfl⟩

theorem witness_ReservedWordIsIllegal : 8 ≤ (CommandWord.op 8).toNat ∧ 8 ≤ (CommandWord.op (-1)).toNat := by decide

theorem witness_AssembledWordsDecode :
    (AsmLine.rdprm 7).assemble = some [0x0707] ∧ (AsmLine.cfg 8 7 0 0 0 0).assemble = some [0x070801] ∧
    (AsmLine.cfg 256 7 0 0 0 0).assemble = none ∧ (AsmLine.rdtbl 256).assemble = none ∧
    (AsmLine.rdprm 8).assemble = none := by decide

end Sys2Proof.Tests
end

/-! # The state: what a command writes, reads and leaves alone, and the invariant every step keeps -/

namespace Sys2Proof.Machine

/-! ## What a finished command leaves -/

/-- `exec_cases` read from the next state: the command answered and wrote no slot, or it is a CFG whose checks pass, or
a BUILD with a parameter set. -/
theorem exec_next_cases {i : Instr} {s t : State} (h : exec i s = .next t) :
    (∃ r l, r.WellShaped ∧ (∀ a ∈ l, a < 2 ^ s.config.addrBits) ∧ t = s.answered r l) ∨
    (∃ width poly init xorout refin refout, i = .cfg width poly init xorout refin refout ∧
      cfgError width poly init xorout = none ∧
      t = { s with ps := some (cfgParams width poly init xorout refin refout) }.answered (Response.success 0 0) []) ∨
    (∃ p, i = .build ∧ s.ps = some p ∧
      t = { s with eng := some (newEngine s.config.narrowRule p) }.answered (Response.success 0 0) []) := by
  rcases exec_cases i s with
    ⟨r, l, hr, hl, he⟩ | ⟨width, poly, init, xorout, refin, refout, hi, hc, he⟩ | ⟨p, hi, hp, he⟩
  · rw [he] at h; cases h
    exact .inl ⟨r, l, hr, hl, rfl⟩
  · rw [he, respond_eq] at h; cases h
    exact .inr (.inl ⟨width, poly, init, xorout, refin, refout, hi, hc, rfl⟩)
  · rw [he, respond_eq] at h; cases h
    exact .inr (.inr ⟨p, hi, hp, rfl⟩)

/-- A command whose opcode is neither CFG's nor BUILD's only answers. -/
theorem exec_eq_answered {i : Instr} {s t : State} (h1 : i.opcode ≠ 1) (h2 : i.opcode ≠ 2) (h : exec i s = .next t) :
    ∃ r l, t = s.answered r l := by
  rcases exec_next_cases h with ⟨r, l, -, -, ht⟩ | ⟨_, _, _, _, _, _, rfl, -, -⟩ | ⟨_, rfl, -, -⟩
  · exact ⟨r, l, ht⟩
  · exact absurd rfl h1
  · exact absurd rfl h2

/-- Settles O20, by the three things a command can do. -/
theorem commandFrame : Obligations.CommandFrame := by
  intro i s t h
  rcases exec_next_cases h with ⟨r, l, -, -, rfl⟩ | ⟨_, _, _, _, _, _, rfl, -, rfl⟩ | ⟨p, rfl, -, rfl⟩
  · exact ⟨rfl, rfl, rfl, fun _ => rfl, rfl, fun _ => rfl, fun _ => rfl⟩
  · exact ⟨rfl, rfl, rfl, fun _ => rfl, rfl, fun hne => absurd rfl (hne _ _ _ _ _ _), fun _ => rfl⟩
  · exact ⟨rfl, rfl, rfl, fun _ => rfl, rfl, fun _ => rfl, fun hne => absurd rfl hne⟩

/-! ## The invariant -/

/-- The invariant says nothing of the command port and the host's moves. -/
theorem State.Inv.of_ports {s : State} (hs : s.Inv) (q : List Presentation) (h : List HostMove) :
    { s with presented := q, host := h }.Inv :=
  ⟨hs.config, hs.ps, hs.eng, hs.eng_needs_ps, hs.msg, hs.reads, hs.rsp⟩

theorem State.Inv.answered {s : State} (hs : s.Inv) {r : Response} {l : List Nat} (hr : r.WellShaped)
    (hl : ∀ a ∈ l, a < 2 ^ s.config.addrBits) : (s.answered r l).Inv where
  config := hs.config
  ps := hs.ps
  eng := hs.eng
  eng_needs_ps := hs.eng_needs_ps
  msg := hs.msg
  reads := hl
  rsp r' h' := by cases h'; exact hr

/-- A valid parameter set may be written to `PS` (R84, R29 clause 1). -/
theorem State.Inv.setPs {s : State} (hs : s.Inv) {p : ParamSet} (hp : p.Valid) : { s with ps := some p }.Inv :=
  { hs with
    ps := fun p' h' => by cases h'; exact hp
    eng_needs_ps := fun _ => rfl }

/-- The engine built from `PS` may be written to `ENG` (R101, R29 clauses 2 to 4). -/
theorem State.Inv.setEng {s : State} (hs : s.Inv) {p : ParamSet} (hp : s.ps = some p) :
    { s with eng := some (newEngine s.config.narrowRule p) }.Inv :=
  { hs with
    eng := fun e h' => by cases h'; exact newEngine_valid _ (hs.ps p hp)
    eng_needs_ps := fun _ => by simp [hp] }

theorem exec_inv {i : Instr} {s t : State} (hs : s.Inv) (h : exec i s = .next t) : t.Inv := by
  have success {u : State} (hu : u.Inv) : (u.answered (Response.success 0 0) []).Inv :=
    hu.answered (Response.success_wellShaped 0 0) (by simp)
  rcases exec_next_cases h with ⟨r, l, hr, hl, rfl⟩ | ⟨_, _, _, _, refin, refout, -, hc, rfl⟩ | ⟨p, -, hp, rfl⟩
  · exact hs.answered hr hl
  · exact success (hs.setPs (cfgParams_valid refin refout hc))
  · exact success (hs.setEng hp)

theorem applyReset_inv {s : State} (hs : s.Inv) : (applyReset s).Inv where
  config := hs.config
  ps := by simp
  eng := by simp
  eng_needs_ps := by simp
  msg := hs.msg
  reads := by simp
  rsp := by simp

theorem hostWrite_inv {s : State} (hs : s.Inv) (a : Word) (b : Byte) : (hostWrite a b s).Inv :=
  { hs with msg := Memory.write_fits hs.msg a.toNat b }

theorem takeResponse_inv {s : State} (hs : s.Inv) : (takeResponse s).Inv :=
  { hs with rsp := by simp }

theorem hostAct_inv {s : State} (hs : s.Inv) : (hostAct s).Inv := by
  have moved (rest : List HostMove) : { s with host := rest }.Inv := hs.of_ports s.presented rest
  rcases hostAct_cases s with ⟨-, h⟩ | ⟨rest, ⟨p, -, h⟩ | ⟨a, b, -, h⟩ | ⟨-, h⟩ | ⟨-, h⟩⟩ <;> rw [h]
  · exact hs
  · exact hs.of_ports _ rest
  · exact hostWrite_inv (moved rest) a b
  · exact takeResponse_inv (moved rest)
  · exact applyReset_inv (moved rest)

/-- Settles O17: a command, a reset that cuts one short and every move of the host keep the invariant. -/
theorem stepKeepsInvariant : Obligations.StepKeepsInvariant := by
  intro s t hs h
  rcases step_cases s with ⟨w, ps, -, -, he⟩ | ⟨w, ps, -, -, he⟩ | ⟨-, he⟩ <;> rw [he] at h
  · exact exec_inv (hs.of_ports ps s.host) h
  · cases h; exact applyReset_inv (hs.of_ports ps s.host)
  · cases h; exact hostAct_inv hs

/-- Settles O18: nothing is held after reset, and the default parameters are in range. -/
theorem resetMeetsInvariant : Obligations.ResetMeetsInvariant where
  config := by decide
  ps := nofun
  eng := nofun
  eng_needs_ps := nofun
  msg := ⟨State.reset_msg_wf, nofun⟩
  reads := nofun
  rsp := nofun

/-! ## Which steps change a slot -/

/-- The decoder keeps the opcode: the command a word decodes to has the word's own (R64). -/
theorem opcode_decode (w : CommandWord) : (decode w).opcode = w.op := by
  apply BitVec.eq_of_toNat_eq
  unfold decode
  split <;> simp [Instr.opcode, *]

/-- A command that changes `PS` is a CFG. -/
theorem opcode_of_exec_ps_ne {i : Instr} {s t : State} (h : exec i s = .next t) (hne : t.ps ≠ s.ps) :
    i.opcode = 1 := by
  obtain ⟨-, -, -, -, -, hps, -⟩ := commandFrame i s t h
  by_contra hi
  exact hne (hps fun _ _ _ _ _ _ hc => hi (by rw [hc]; rfl))

/-- A command that changes `ENG` is a BUILD. -/
theorem opcode_of_exec_eng_ne {i : Instr} {s t : State} (h : exec i s = .next t) (hne : t.eng ≠ s.eng) :
    i.opcode = 2 := by
  obtain ⟨-, -, -, -, -, -, heng⟩ := commandFrame i s t h
  by_contra hi
  exact hne (heng fun hb => hi (by rw [hb]; rfl))

/-- A move of the host is a reset, or it leaves both slots as they are (R24, R170). -/
theorem hostAct_slots (s : State) :
    s.host.head? = some .reset ∨ ((hostAct s).ps = s.ps ∧ (hostAct s).eng = s.eng) := by
  rcases hostAct_cases s with ⟨-, h⟩ | ⟨rest, ⟨p, -, h⟩ | ⟨a, b, -, h⟩ | ⟨-, h⟩ | ⟨hm, -⟩⟩
  · exact .inr (by simp [h])
  · exact .inr (by simp [h])
  · exact .inr (by simp [h])
  · exact .inr (by simp [h])
  · exact .inl (by rw [hm]; rfl)

/-- A step applies reset, leaves both slots as they are, or runs the command it accepts. -/
theorem step_slots {s t : State} (h : step s = .next t) :
    s.resetsNext = true ∨ (t.ps = s.ps ∧ t.eng = s.eng) ∨
    ∃ w ps, s.presented = ⟨w, false⟩ :: ps ∧ s.rsp = none ∧ exec (decode w) { s with presented := ps } = .next t := by
  rcases step_cases s with ⟨w, ps, hp, hr, he⟩ | ⟨w, ps, hp, hr, -⟩ | ⟨hn, he⟩
  · exact .inr (.inr ⟨w, ps, hp, hr, he ▸ h⟩)
  · exact .inl (by simp [State.resetsNext, State.accepted_of hp hr])
  · rw [he] at h; cases h
    rcases hostAct_slots s with hm | hslots
    · exact .inl (by simp [State.resetsNext, State.accepted_eq_none.2 hn, hm])
    · exact .inr (.inl hslots)

/-- Settles O21: a step that applies no reset changes a slot by the command it accepts, whose opcode is the word's. -/
theorem onlyCfgBuildAndResetChangeSlots : Obligations.OnlyCfgBuildAndResetChangeSlots := by
  intro s t h
  rcases step_slots h with hreset | ⟨hps, heng⟩ | ⟨w, ps, hp, hr, he⟩
  · exact ⟨fun _ => .inl hreset, fun _ => .inl hreset⟩
  · exact ⟨fun hne => absurd hps hne, fun hne => absurd heng hne⟩
  · have hop := opcode_decode w
    exact ⟨fun hne => .inr ⟨w, ps, hp, hr, hop ▸ opcode_of_exec_ps_ne he hne⟩,
      fun hne => .inr ⟨w, ps, hp, hr, hop ▸ opcode_of_exec_eng_ne he hne⟩⟩

/-! ## Commands and the ports -/

/-- The state with other contents on both ports, another read trace and other moves of the host to come. -/
def State.withPorts (s : State) (q : List Presentation) (r : Option Response) (l : List Nat) (h : List HostMove) :
    State :=
  { s with presented := q, rsp := r, reads := l, host := h }

/-- Two results that are the same state but for the presented words and the host's moves, which in the second are
`q` and `h`. -/
def SameButPorts (q : List Presentation) (h : List HostMove) (a b : Result) : Prop :=
  ∃ t, a = .next t ∧ b = .next { t with presented := q, host := h }

section withPorts
variable (s : State) (q : List Presentation) (r : Option Response) (l : List Nat) (h : List HostMove)

theorem respond_withPorts (len : BitVec 4) (data : Word) :
    SameButPorts q h (respond len data s) (respond len data (s.withPorts q r l h)) := ⟨_, rfl, rfl⟩

theorem raise_withPorts (c : Cause) : SameButPorts q h (raise c s) (raise c (s.withPorts q r l h)) := ⟨_, rfl, rfl⟩

theorem execCfg_withPorts (width : Byte) (poly init xorout : Word) (refin refout : Bool) :
    SameButPorts q h (execCfg width poly init xorout refin refout s)
      (execCfg width poly init xorout refin refout (s.withPorts q r l h)) := by
  unfold execCfg
  cases cfgError width poly init xorout with
  | some c => exact raise_withPorts s q r l h c
  | none => exact ⟨_, rfl, rfl⟩

theorem execBuild_withPorts : SameButPorts q h (execBuild s) (execBuild (s.withPorts q r l h)) := by
  obtain ⟨config, ps, eng, msg, presented, rsp, reads, host⟩ := s
  cases ps with
  | none => exact raise_withPorts _ q r l h .paramsAbsent
  | some p => exact ⟨_, rfl, rfl⟩

theorem compute_withPorts (form : Engine → BitVec 4) (p : Bool) (base len : Word) :
    SameButPorts q h (compute form p base len s) (compute form p base len (s.withPorts q r l h)) := by
  obtain ⟨config, ps, eng, msg, presented, rsp, reads, host⟩ := s
  cases eng with
  | none => exact raise_withPorts _ q r l h .engineAbsent
  | some e =>
    cases p with
    | false => exact raise_withPorts _ q r l h .dataAbsent
    | true => exact ⟨_, rfl, rfl⟩

theorem execRdtbl_withPorts (idx : Byte) :
    SameButPorts q h (execRdtbl idx s) (execRdtbl idx (s.withPorts q r l h)) := by
  obtain ⟨config, ps, eng, msg, presented, rsp, reads, host⟩ := s
  cases eng with
  | none => exact raise_withPorts _ q r l h .engineAbsent
  | some e => exact respond_withPorts _ q r l h 8 (e.lookup idx)

theorem execRdprm_withPorts (bank : Bank) (field : ParamField) :
    SameButPorts q h (execRdprm bank field s) (execRdprm bank field (s.withPorts q r l h)) := by
  have hbank : (s.withPorts q r l h).bank bank = s.bank bank := by cases bank <;> rfl
  unfold execRdprm
  rw [hbank]
  cases s.bank bank with
  | none => exact raise_withPorts s q r l h (absentCause bank)
  | some p => exact respond_withPorts s q r l h 8 (p.field field)

/-- No command reads the ports, the trace or the host's moves (R25, R27). -/
theorem exec_withPorts (i : Instr) : SameButPorts q h (exec i s) (exec i (s.withPorts q r l h)) := by
  cases i with
  | nop => exact respond_withPorts s q r l h 0 0
  | cfg width poly init xorout refin refout => exact execCfg_withPorts s q r l h width poly init xorout refin refout
  | build => exact execBuild_withPorts s q r l h
  | compn p base len => exact compute_withPorts s q r l h _ p base len
  | compb p base len => exact compute_withPorts s q r l h _ p base len
  | rdtbl idx => exact execRdtbl_withPorts s q r l h idx
  | rdst => exact respond_withPorts s q r l h 8 s.statusWord
  | rdprm bank field => exact execRdprm_withPorts s q r l h bank field
  | reserved op => exact raise_withPorts s q r l h .reservedOp

end withPorts

/-- Settles O25, command by command. -/
theorem portsDoNotInfluenceCommands : Obligations.PortsDoNotInfluenceCommands :=
  fun i s q r l h => exec_withPorts s q r l h i

/-- An answer leaves nothing a later command reads: the answered state differs on the ports only. -/
theorem exec_answered (j : Instr) (s : State) (r : Response) (l : List Nat) : exec j (s.answered r l) = exec j s := by
  obtain ⟨t, ht, hta⟩ := exec_withPorts s s.presented (some r) l s.host j
  obtain ⟨-, hpresented, hhost, -⟩ := commandFrame j s t ht
  calc exec j (s.answered r l)
      _ = .next { t with presented := s.presented, host := s.host } := hta
      _ = .next t := by rw [← hpresented, ← hhost]
      _ = exec j s := ht.symm

/-- Settles O24: such a command only answers, and an answer leaves nothing a later command reads. -/
theorem readingCommandLeavesNoTrace : Obligations.ReadingCommandLeavesNoTrace := by
  intro i j s t h1 h2 _ h
  obtain ⟨r, l, rfl⟩ := exec_eq_answered h1 h2 h
  exact exec_answered j s r l

/-! ## What COMPN and COMPB read of the slots -/

/-- The engine with another polynomial in its copy of the parameters, and the same table. -/
def Engine.withPoly (e : Engine) (poly : Word) : Engine := { e with params := { e.params with poly := poly } }

/-- The polynomial acts on the check value only through the table (R131). -/
@[simp] theorem Engine.check_withPoly (e : Engine) (poly : Word) (rule : NarrowRule) (data : List Byte) :
    (e.withPoly poly).check rule data = e.check rule data := rfl

@[simp] theorem Engine.byteLength_withPoly (e : Engine) (poly : Word) :
    (e.withPoly poly).byteLength = e.byteLength := rfl

/-- What COMPN and COMPB share reads neither `PS` nor `ENG.poly`, for a result length that does not either. -/
theorem compute_withPoly {form : Engine → BitVec 4} {s : State} {e : Engine} (he : s.eng = some e) (poly : Word)
    (hform : form (e.withPoly poly) = form e) (q : Option ParamSet) (p : Bool) (base len : Word) :
    ∃ t t', compute form p base len s = .next t ∧
      compute form p base len { s with ps := q, eng := some (e.withPoly poly) } = .next t' ∧
      t'.rsp = t.rsp ∧ t'.reads = t.reads := by
  simp only [compute, he]
  cases p with
  | false => exact ⟨_, _, rfl, rfl, rfl, rfl⟩
  | true =>
    refine ⟨_, _, rfl, rfl, ?_, rfl⟩
    simp only [State.answered_rsp, hform, Engine.check_withPoly]
    rfl

/-- Settles O27: neither the check value nor either result length reads the polynomial. -/
theorem computeIgnoresPsAndPoly : Obligations.ComputeIgnoresPsAndPoly := by
  rintro s e q poly p base len i he (rfl | rfl)
  · exact compute_withPoly he poly rfl q p base len
  · exact compute_withPoly he poly (by rw [Engine.byteLength_withPoly]) q p base len

/-! ## The reset state and an answer -/

/-- Settles O16. -/
theorem resetStateHoldsNothing : Obligations.ResetStateHoldsNothing := by
  have hstatus : State.reset.statusWord = 0 := by decide
  have hrdst : exec .rdst State.reset = respond 8 State.reset.statusWord State.reset := rfl
  exact ⟨rfl, rfl, rfl, rfl, by rw [hrdst, hstatus, respond_eq]⟩

/-- Settles O19, by the lemmas of `State.answered`, one per field. -/
theorem answerChangesPortOnly : Obligations.AnswerChangesPortOnly := fun s r l =>
  ⟨s.answered_ps r l, s.answered_eng r l, s.answered_msg r l, s.answered_config r l, s.answered_host r l,
    s.answered_presented r l, s.answered_rsp r l, s.answered_reads r l⟩

end Sys2Proof.Machine

/-! # The message space: the host's writes and the reads of a command -/

namespace Sys2Proof.Machine

/-! ## The host's write -/

/-- With a write next, the host's move is that write. -/
theorem hostAct_of_write {s : State} {a : Word} {b : Byte} {rest : List HostMove} (h : s.host = .write a b :: rest) :
    hostAct s = hostWrite a b { s with host := rest } := by
  simp only [hostAct, h, HostMove.apply]

/-- Settles O13: the step is the host's write, whose byte of MSG obeys the laws of `Memory.write`. -/
theorem hostWriteReadsBack : Obligations.HostWriteReadsBack := by
  intro s a b rest hfits hwait hhost
  have hstep : step s = .next (hostWrite a b { s with host := rest }) := by
    rw [step_of_not_accepted hwait, hostAct_of_write hhost]
  exact ⟨_, hstep, Memory.read_write_same s.msg _ b, fun _ hne => Memory.read_write_other s.msg hne b,
    Memory.write_fits hfits a.toNat b, rfl, rfl, rfl, rfl, rfl, rfl, rfl⟩

/-! ## Commands that read no byte of MSG -/

/-- The state with other contents of MSG. -/
def State.withMsg (s : State) (m : Memory) : State := { s with msg := m }

@[simp] theorem State.withMsg_ps (s : State) (m : Memory) : (s.withMsg m).ps = s.ps := rfl
@[simp] theorem State.withMsg_eng (s : State) (m : Memory) : (s.withMsg m).eng = s.eng := rfl
@[simp] theorem State.withMsg_bank (s : State) (m : Memory) (b : Bank) : (s.withMsg m).bank b = s.bank b := by
  cases b <;> rfl

/-- The first result is a state with an empty read trace, and the second is that state with the contents `m` of MSG. -/
def NoReadSameButMsg (m : Memory) (a b : Result) : Prop :=
  ∃ t, a = .next t ∧ t.reads = [] ∧ b = .next (t.withMsg m)

section withMsg
variable (s : State) (m : Memory)

theorem respond_withMsg (len : BitVec 4) (data : Word) :
    NoReadSameButMsg m (respond len data s) (respond len data (s.withMsg m)) := ⟨_, rfl, rfl, rfl⟩

theorem raise_withMsg (c : Cause) : NoReadSameButMsg m (raise c s) (raise c (s.withMsg m)) := ⟨_, rfl, rfl, rfl⟩

theorem execCfg_withMsg (width : Byte) (poly init xorout : Word) (refin refout : Bool) :
    NoReadSameButMsg m (execCfg width poly init xorout refin refout s)
      (execCfg width poly init xorout refin refout (s.withMsg m)) := by
  unfold execCfg
  cases cfgError width poly init xorout with
  | some c => exact raise_withMsg s m c
  | none => exact respond_withMsg { s with ps := some (cfgParams width poly init xorout refin refout) } m 0 0

theorem execBuild_withMsg : NoReadSameButMsg m (execBuild s) (execBuild (s.withMsg m)) := by
  unfold execBuild
  rw [State.withMsg_ps]
  cases s.ps with
  | none => exact raise_withMsg s m .paramsAbsent
  | some p => exact respond_withMsg { s with ps := some p, eng := some (newEngine s.config.narrowRule p) } m 0 0

theorem execRdtbl_withMsg (idx : Byte) : NoReadSameButMsg m (execRdtbl idx s) (execRdtbl idx (s.withMsg m)) := by
  unfold execRdtbl
  rw [State.withMsg_eng]
  cases s.eng with
  | none => exact raise_withMsg s m .engineAbsent
  | some e => exact respond_withMsg s m 8 (e.lookup idx)

theorem execRdprm_withMsg (bank : Bank) (field : ParamField) :
    NoReadSameButMsg m (execRdprm bank field s) (execRdprm bank field (s.withMsg m)) := by
  unfold execRdprm
  rw [State.withMsg_bank]
  cases s.bank bank with
  | none => exact raise_withMsg s m (absentCause bank)
  | some p => exact respond_withMsg s m 8 (p.field field)

end withMsg

/-- Settles O26, command by command. -/
theorem onlyComputeReadsMessage : Obligations.OnlyComputeReadsMessage := by
  intro i s m hcompn hcompb
  show NoReadSameButMsg m (exec i s) (exec i (s.withMsg m))
  cases i with
  | nop => exact respond_withMsg s m 0 0
  | cfg width poly init xorout refin refout => exact execCfg_withMsg s m width poly init xorout refin refout
  | build => exact execBuild_withMsg s m
  | compn p base len => exact absurd rfl (hcompn p base len)
  | compb p base len => exact absurd rfl (hcompb p base len)
  | rdtbl idx => exact execRdtbl_withMsg s m idx
  | rdst => exact respond_withMsg s m 8 s.statusWord
  | rdprm bank field => exact execRdprm_withMsg s m bank field
  | reserved op => exact raise_withMsg s m .reservedOp

/-! ## The reads of COMPN and COMPB -/

@[simp] theorem length_messageAddresses (c : Config) (base len : Word) :
    (messageAddresses c base len).length = len.toNat := by
  rw [messageAddresses, List.length_map, List.length_range]

/-- Byte `k` of the message stands at the wrapped address of R43. -/
theorem getElem?_messageAddresses (c : Config) (base : Word) {len : Word} {k : Nat} (hk : k < len.toNat) :
    (messageAddresses c base len)[k]? = some (effectiveAddress c base k) := by
  rw [messageAddresses, List.getElem?_map, List.getElem?_range hk, Option.map_some]

/-- With an engine and data present, what COMPN and COMPB share reads the addresses of the message and no others. -/
theorem compute_reads {s : State} {e : Engine} (he : s.eng = some e) (form : Engine → BitVec 4) (base len : Word) :
    ∃ t, compute form true base len s = .next t ∧ t.reads = messageAddresses s.config base len := by
  rcases compute_cases form true base len s with ⟨hnone, -⟩ | ⟨_, -, hp, -⟩ | ⟨_, -, -, h⟩
  · rw [he] at hnone; contradiction
  · contradiction
  · exact ⟨_, h, State.answered_reads ..⟩

/-- Settles O46: both commands read the message's addresses, one per byte in the order of `k`. -/
theorem messageIsReadOnceInOrder : Obligations.MessageIsReadOnceInOrder := by
  intro s e base len i he hi
  obtain ⟨t, ht, hreads⟩ :
      ∃ t, exec i s = .next t ∧ t.reads = messageAddresses s.config base len := by
    rcases hi with rfl | rfl
    · exact compute_reads he _ base len
    · exact compute_reads he _ base len
  refine ⟨t, ht, ?_, fun k hk => ?_, ?_⟩
  · rw [hreads, length_messageAddresses]
  · rw [hreads, getElem?_messageAddresses s.config base hk, effectiveAddress]
  · rw [hreads, message]

end Sys2Proof.Machine

/-! # The encoding: the layout of the two records, the decoder, the opcode table and the assembler -/

namespace Sys2Proof

/-! ## The decoder, one equation per opcode (R64) -/

section decode
variable {w : CommandWord}

theorem decode_eq_nop (h : w.op = 0) : decode w = .nop := by rw [decode, h]; rfl

theorem decode_eq_cfg (h : w.op = 1) : decode w = .cfg w.a w.x w.y w.z w.f0 w.f1 := by rw [decode, h]; rfl

theorem decode_eq_build (h : w.op = 2) : decode w = .build := by rw [decode, h]; rfl

theorem decode_eq_compn (h : w.op = 3) : decode w = .compn w.f0 w.x w.y := by rw [decode, h]; rfl

theorem decode_eq_compb (h : w.op = 4) : decode w = .compb w.f0 w.x w.y := by rw [decode, h]; rfl

theorem decode_eq_rdtbl (h : w.op = 5) : decode w = .rdtbl w.a := by rw [decode, h]; rfl

theorem decode_eq_rdst (h : w.op = 6) : decode w = .rdst := by rw [decode, h]; rfl

theorem decode_eq_rdprm (h : w.op = 7) :
    decode w = .rdprm (Bank.ofBit (w.a.getLsbD 2)) (ParamField.ofBits (w.a.extractLsb' 0 2)) := by
  rw [decode, h]; rfl

theorem decode_eq_reserved (h : 8 ≤ w.op.toNat) : decode w = .reserved w.op := by
  unfold decode
  split
  any_goals omega
  rfl

/-- Every decoded command is well-formed: what is left when the opcode is none of the map is 8 or above (R65). -/
theorem decode_wellFormed (w : CommandWord) : (decode w).wellFormed = true := by
  unfold decode
  split
  any_goals rfl
  simp only [Instr.wellFormed, decide_eq_true_iff, imp_false] at *
  omega

end decode

/-- Settles O2, command by command: the opcode of the packed word picks the equation, and its fields are the operands. -/
theorem decodeEncodeRoundTrip : Obligations.DecodeEncodeRoundTrip := by
  intro i hi
  cases i with
  | nop => exact decode_eq_nop Laws.EncodeOp.nop
  | cfg width poly init xorout refin refout =>
    rw [decode_eq_cfg (Laws.EncodeOp.cfg width poly init xorout refin refout)]
    simp [encode]
  | build => exact decode_eq_build Laws.EncodeOp.build
  | compn p base len =>
    rw [decode_eq_compn (Laws.EncodeOp.compn p base len)]
    simp [encode]
  | compb p base len =>
    rw [decode_eq_compb (Laws.EncodeOp.compb p base len)]
    simp [encode]
  | rdtbl idx =>
    rw [decode_eq_rdtbl (Laws.EncodeOp.rdtbl idx)]
    simp [encode]
  | rdst => exact decode_eq_rdst Laws.EncodeOp.rdst
  | rdprm b f =>
    rw [decode_eq_rdprm (Laws.EncodeOp.rdprm b f)]
    simp only [encode, CommandWord.a_pack, bank_rdprmOperand, field_rdprmOperand]
  | reserved op =>
    have hop : (encode (.reserved op)).op = op := Laws.EncodeOp.reserved op
    have hge : 8 ≤ op.toNat := of_decide_eq_true hi
    rw [decode_eq_reserved (by rwa [hop]), hop]

/-! ## The opcode selects the command -/

theorem Bank.ofBit_eq_eng_iff (b : Bool) : Bank.ofBit b = .eng ↔ b = true := by
  cases b <;> simp [Bank.ofBit]

/-- A field is selected by its own number (R142). -/
theorem ParamField.ofBits_eq_iff (n : BitVec 2) (f : ParamField) : ParamField.ofBits n = f ↔ n.toNat = f.bits.toNat := by
  cases f <;> revert n <;> decide

/-- Settles O3, by the decoder's equations; RDPRM's bank and field are read as numbers of `cw.a`. -/
theorem opcodeSelectsCommand : Obligations.OpcodeSelectsCommand := by
  intro w
  refine ⟨decode_eq_nop, decode_eq_cfg, decode_eq_build, decode_eq_compn, decode_eq_compb, decode_eq_rdtbl,
    decode_eq_rdst, fun h => ⟨_, _, decode_eq_rdprm h, ?_, ?_⟩, decode_eq_reserved⟩
  · rw [Bank.ofBit_eq_eng_iff, ← BitVec.testBit_toNat, Nat.testBit_eq_decide_div_mod_eq, decide_eq_true_iff]
  · have hsel : (w.a.extractLsb' 0 2).toNat = w.a.toNat % 4 := BitVec.extractLsb'_toNat ..
    simp only [ParamField.ofBits_eq_iff, hsel]
    exact ⟨Iff.rfl, Iff.rfl, Iff.rfl, Iff.rfl⟩

/-- Settles O1: the words are literals, and the decoder computes on them. -/
theorem specWordsDecode : Obligations.SpecWordsDecode := by
  unfold Obligations.SpecWordsDecode
  decide

/-! ## The opcode table -/

/-- The opcode field of the word that holds an opcode and nothing else. -/
@[simp] theorem CommandWord.op_setWidth (op : BitVec 4) : CommandWord.op (op.setWidth 208) = op := by
  apply BitVec.eq_of_getLsbD_eq
  intro i hi
  have hi208 : i < 208 := by omega
  simp [CommandWord.op, hi, hi208]

/-- A row's test of a word looks at the opcode only (R64). -/
theorem OpcodeRow.owns_eq_owns_op {r : OpcodeRow} (hr : r ∈ opcodeRows) (w : CommandWord) :
    r.owns w = r.owns (w.op.setWidth 208) := by
  have hmask : ∀ r ∈ opcodeRows, 0xF &&& r.mask = r.mask := by decide
  rw [OpcodeRow.owns, OpcodeRow.owns, ← CommandWord.and_opMask, BitVec.and_assoc, hmask r hr]

/-- Which command a word decodes to depends on the opcode only (R64). -/
theorem mnemonic_decode_eq_op (w : CommandWord) :
    (decode w).mnemonic = (decode (w.op.setWidth 208)).mnemonic := by
  unfold decode
  rw [CommandWord.op_setWidth]
  split <;> rfl

/-- The sixteen opcodes: each is in exactly one row of the table, the one of its command. -/
theorem owningRows_of_opcode (op : BitVec 4) :
    (opcodeRows.filter fun r => r.owns (op.setWidth 208)).map OpcodeRow.mnemonic =
      [(decode (op.setWidth 208)).mnemonic] := by
  revert op
  decide

/-- Settles O4: both the rows' tests and the mnemonic of the decoded command depend on the opcode only, and the sixteen
opcodes are checked one by one. -/
theorem everyWordIsExactlyOneRow : Obligations.EveryWordIsExactlyOneRow := by
  intro w
  refine ⟨decode_wellFormed w, List.map_eq_singleton_iff.1 ?_⟩
  rw [List.filter_congr fun r hr => OpcodeRow.owns_eq_owns_op hr w, owningRows_of_opcode, ← mnemonic_decode_eq_op]

/-! ## The bits a row reads -/

section reads
variable {m w v : CommandWord}

/-- Two words that agree under a mask agree at every bit the mask keeps. -/
theorem CommandWord.getLsbD_eq_of_and_eq (h : w &&& m = v &&& m) {i : Nat} (hi : m.getLsbD i = true) :
    w.getLsbD i = v.getLsbD i := by
  have hbit := congrArg (fun u => BitVec.getLsbD u i) h
  simpa only [BitVec.getLsbD_and, hi, Bool.and_true] using hbit

theorem CommandWord.a_getLsbD (w : CommandWord) {k : Nat} (hk : k < 8) : w.a.getLsbD k = w.getLsbD (8 + k) := by
  simp [CommandWord.a, hk]

/-- Two words that agree on the bits format P reads are the same CFG's, if they are one (R62). -/
theorem decode_eq_of_formatP (h : w &&& formatPBits = v &&& formatPBits) (hw : w.op = 1) (hv : v.op = 1) :
    decode w = decode v := by
  have ha : w.a = v.a := CommandWord.extractLsb'_eq_of_and_eq h (by decide)
  have hx : w.x = v.x := CommandWord.extractLsb'_eq_of_and_eq h (by decide)
  have hy : w.y = v.y := CommandWord.extractLsb'_eq_of_and_eq h (by decide)
  have hz : w.z = v.z := CommandWord.extractLsb'_eq_of_and_eq h (by decide)
  have hf0 : w.f0 = v.f0 := CommandWord.getLsbD_eq_of_and_eq h (by decide)
  have hf1 : w.f1 = v.f1 := CommandWord.getLsbD_eq_of_and_eq h (by decide)
  rw [decode_eq_cfg hw, decode_eq_cfg hv, ha, hx, hy, hz, hf0, hf1]

/-- Two words that agree on the bits format M reads have the same operands of that format (R62). -/
theorem formatM_operands (h : w &&& formatMBits = v &&& formatMBits) : w.f0 = v.f0 ∧ w.x = v.x ∧ w.y = v.y :=
  ⟨CommandWord.getLsbD_eq_of_and_eq h (by decide), CommandWord.extractLsb'_eq_of_and_eq h (by decide),
    CommandWord.extractLsb'_eq_of_and_eq h (by decide)⟩

/-- The operand of RDPRM is its three selector bits (R142). -/
theorem decode_eq_of_selector (h : w &&& CommandWord.pack 0xF false false 0x7 0 0 0 =
    v &&& CommandWord.pack 0xF false false 0x7 0 0 0) (hw : w.op = 7) (hv : v.op = 7) : decode w = decode v := by
  have hbit : ∀ k < 3, w.a.getLsbD k = v.a.getLsbD k := by
    intro k hk
    rw [CommandWord.a_getLsbD w (by omega), CommandWord.a_getLsbD v (by omega)]
    refine CommandWord.getLsbD_eq_of_and_eq h ?_
    revert k
    decide
  have hfield : w.a.extractLsb' 0 2 = v.a.extractLsb' 0 2 := by
    apply BitVec.eq_of_getLsbD_eq
    intro k hk
    simp only [BitVec.getLsbD_extractLsb', Nat.zero_add, hbit k (by omega)]
  rw [decode_eq_rdprm hw, decode_eq_rdprm hv, hbit 2 (by omega), hfield]

end reads

/-- The opcode of a word that one of the rows 0 to 7 owns is the row's own. -/
theorem OpcodeRow.op_of_owns {r : OpcodeRow} (hmask : r.mask = 0xF) {w : CommandWord} (h : r.owns w = true) :
    w.op = r.pattern.op := by
  have hpattern : w.op.setWidth 208 = r.pattern := by
    rw [← CommandWord.and_opMask, ← hmask]
    exact eq_of_beq h
  rw [← hpattern, CommandWord.op_setWidth]

/-- The opcode of a word that the row RESERVED owns is 8 or above (R65 clause 1). -/
theorem le_op_of_owns_reserved {w : CommandWord} (h : OpcodeRow.owns ⟨"RESERVED", 0x8, 0x8, opBits⟩ w = true) :
    8 ≤ w.op.toNat := by
  have hops : ∀ op : BitVec 4, OpcodeRow.owns ⟨"RESERVED", 0x8, 0x8, opBits⟩ (op.setWidth 208) = true →
      8 ≤ op.toNat := by decide
  rw [OpcodeRow.owns_eq_owns_op (by decide)] at h
  exact hops w.op h

/-- Settles O5, row by row: the bits every row reads hold the opcode, and the other bits it reads hold its operands. -/
theorem ignoredBitsHaveNoEffect : Obligations.IgnoredBitsHaveNoEffect := by
  intro r hr w v hown h
  have hop : v.op = w.op := by
    have hreads : ∀ r ∈ opcodeRows, ∀ i < 4, r.reads.getLsbD (0 + i) = true := by decide
    exact CommandWord.extractLsb'_eq_of_and_eq h.symm (hreads r hr)
  simp only [opcodeRows, List.mem_cons, List.not_mem_nil, or_false] at hr
  rcases hr with rfl | rfl | rfl | rfl | rfl | rfl | rfl | rfl | rfl
  pick_goal 9
  · have hw := le_op_of_owns_reserved hown
    rw [decode_eq_reserved hw, decode_eq_reserved (hop ▸ hw), hop]
  all_goals
    have hw := OpcodeRow.op_of_owns rfl hown
    have hv := hop.trans hw
  · rw [decode_eq_nop hw, decode_eq_nop hv]
  · exact decode_eq_of_formatP h hw hv
  · rw [decode_eq_build hw, decode_eq_build hv]
  · obtain ⟨hf0, hx, hy⟩ := formatM_operands h
    rw [decode_eq_compn hw, decode_eq_compn hv, hf0, hx, hy]
  · obtain ⟨hf0, hx, hy⟩ := formatM_operands h
    rw [decode_eq_compb hw, decode_eq_compb hv, hf0, hx, hy]
  · have ha : w.a = v.a := CommandWord.extractLsb'_eq_of_and_eq h (by decide)
    rw [decode_eq_rdtbl hw, decode_eq_rdtbl hv, ha]
  · rw [decode_eq_rdst hw, decode_eq_rdst hv]
  · exact decode_eq_of_selector h hw hv

/-! ## The numbers of the two records (R61, R66) -/

/-- A concatenation as a number. -/
theorem toNat_append_eq_add {m n : Nat} (u : BitVec m) (v : BitVec n) :
    (u ++ v).toNat = u.toNat * 2 ^ n + v.toNat := by
  rw [BitVec.toNat_append, ← Nat.shiftLeft_add_eq_or_of_lt v.isLt, Nat.shiftLeft_eq]

/-- A run of bits as a number. -/
theorem toNat_extractLsb'_eq_div_mod {n : Nat} (lo len : Nat) (u : BitVec n) :
    (u.extractLsb' lo len).toNat = u.toNat / 2 ^ lo % 2 ^ len := by
  rw [BitVec.extractLsb'_toNat, Nat.shiftRight_eq_div_pow]

/-- A single bit as a number. -/
theorem toNat_getLsbD_eq_div_mod {n : Nat} (u : BitVec n) (i : Nat) : (u.getLsbD i).toNat = u.toNat / 2 ^ i % 2 := by
  rw [← BitVec.testBit_toNat, Nat.toNat_testBit]

/-- Settles O6: each field is a run of bits of the word, and a packed word is a concatenation. -/
theorem commandWordLayout : Obligations.CommandWordLayout := by
  refine ⟨fun w => ⟨?_, toNat_getLsbD_eq_div_mod w 4, toNat_getLsbD_eq_div_mod w 5, toNat_extractLsb'_eq_div_mod 8 8 w,
    toNat_extractLsb'_eq_div_mod 16 64 w, toNat_extractLsb'_eq_div_mod 80 64 w,
    toNat_extractLsb'_eq_div_mod 144 64 w⟩, fun op f0 f1 a x y z => ?_⟩
  · rw [CommandWord.op, toNat_extractLsb'_eq_div_mod, pow_zero, Nat.div_one]
  · simp only [CommandWord.pack, toNat_append_eq_add, BitVec.toNat_ofBool, BitVec.toNat_ofNat]
    omega

end Sys2Proof

namespace Sys2Proof.Machine

theorem Response.toNat_bits (r : Response) :
    r.bits.toNat = r.code.bits.toNat + 4 * r.cause.bits.toNat + 64 * r.len.toNat + 1024 * r.data.toNat := by
  simp only [Response.bits, toNat_append_eq_add]
  omega

/-- A record with code OK has cause NONE (R67). -/
theorem Response.WellShaped.cause_bits_of_ok {r : Response} (hr : r.WellShaped) (hok : r.code = .ok) :
    r.cause.bits = 0 := by
  have hcause : ∀ c : Cause, c.code = .ok → c.bits = 0 := by
    intro c hc
    cases c with
    | none => rfl
    | _ => contradiction
  exact hcause r.cause (hr.code_eq ▸ hok)

/-- Every command in every state ends with one well-shaped response on the port (R60, R66). -/
theorem exec_answers (i : Instr) (s : State) : ∃ t r, exec i s = .next t ∧ t.rsp = some r ∧ r.WellShaped := by
  rcases exec_cases i s with ⟨r, l, hr, -, he⟩ | ⟨_, _, _, _, _, _, -, -, he⟩ | ⟨_, -, -, he⟩
  · exact ⟨_, r, he, rfl, hr⟩
  · exact ⟨_, _, he, rfl, Response.success_wellShaped 0 0⟩
  · exact ⟨_, _, he, rfl, Response.success_wellShaped 0 0⟩

/-- Settles O7: the record is a concatenation, and every command ends with a well-shaped one. -/
theorem responseRecordLayout : Obligations.ResponseRecordLayout := by
  refine ⟨⟨rfl, rfl, rfl, rfl⟩, Response.toNat_bits, fun i s => ?_⟩
  obtain ⟨t, r, he, hrsp, hr⟩ := exec_answers i s
  exact ⟨t, r, he, hrsp, hr.cause_bits_of_ok, hr.error_empty⟩

/-- Settles O29: the two maps of R67, cause by cause. -/
theorem causeNumbersAndCodes : Obligations.CauseNumbersAndCodes :=
  ⟨⟨rfl, rfl⟩, ⟨rfl, rfl⟩, ⟨rfl, rfl⟩, ⟨rfl, rfl⟩, ⟨rfl, rfl⟩, ⟨rfl, rfl⟩, ⟨rfl, rfl⟩, ⟨rfl, rfl⟩, rfl, rfl⟩

/-! ## Steps and the ports -/

/-- Settles O10: a command answers, and a step is a command, a reset or a move of the host. -/
theorem everyStepCompletes : Obligations.EveryStepCompletes := by
  have hexec : ∀ i s, ∃ t, exec i s = .next t := fun i s =>
    let ⟨t, _, he, _⟩ := exec_answers i s
    ⟨t, he⟩
  refine ⟨hexec, fun s => ?_⟩
  rcases step_cases s with ⟨w, ps, -, -, hstep⟩ | ⟨w, ps, -, -, hstep⟩ | ⟨-, hstep⟩ <;> rw [hstep]
  · exact hexec _ _
  · exact ⟨_, rfl⟩
  · exact ⟨_, rfl⟩

/-- Settles O8. -/
theorem stepRunsDecodedCommand : Obligations.StepRunsDecodedCommand := by
  rintro s w ps _ hpresented hrsp rfl -
  exact step_of_presented hpresented hrsp

/-- With a move to come, the host makes it. -/
theorem hostAct_cons {s : State} {m : HostMove} {rest : List HostMove} (h : s.host = m :: rest) :
    hostAct s = m.apply { s with host := rest } := by
  simp only [hostAct, h]

/-- Where no command is accepted, the step is the host's next move. -/
theorem step_eq_hostMove {s : State} {m : HostMove} {rest : List HostMove} (h : s.presented = [] ∨ s.rsp ≠ none)
    (hm : s.host = m :: rest) : step s = .next (m.apply { s with host := rest }) := by
  rw [step_of_not_accepted h, hostAct_cons hm]

/-- A move of the host adds words behind those presented, and leaves a waiting response there or takes it away. -/
theorem hostAct_ports {s : State} {r : Response} (hr : s.rsp = some r) :
    ∃ l, (hostAct s).presented = s.presented ++ l ∧ ((hostAct s).rsp = some r ∨ (hostAct s).rsp = none) := by
  rcases hostAct_cases s with ⟨-, h⟩ | ⟨rest, ⟨p, -, h⟩ | ⟨a, b, -, h⟩ | ⟨-, h⟩ | ⟨-, h⟩⟩ <;> rw [h]
  · exact ⟨[], (List.append_nil _).symm, .inl hr⟩
  · exact ⟨[p], rfl, .inl hr⟩
  · exact ⟨[], (List.append_nil _).symm, .inl hr⟩
  · exact ⟨[], (List.append_nil _).symm, .inr rfl⟩
  · exact ⟨[], (List.append_nil _).symm, .inr rfl⟩

/-- Settles O11, move by move. -/
theorem portWaitsForTheHost : Obligations.PortWaitsForTheHost := by
  refine ⟨fun s hwait hhost => ?_, fun s w rest hwait hhost => step_eq_hostMove hwait hhost,
    fun s w rest hwait hhost => step_eq_hostMove hwait hhost,
    fun s rest hwait hhost => step_eq_hostMove hwait hhost, fun s r hr => ?_⟩
  · rw [step_of_not_accepted hwait, hostAct, hhost]
  · obtain ⟨l, hpresented, hrsp⟩ := hostAct_ports hr
    exact ⟨_, l, step_of_not_accepted (.inr (by simp [hr])), hpresented, hrsp⟩

/-- Settles O12: the command answers and leaves the other ports as they were, so the host's next move is the take. -/
theorem oneResponsePerCommand : Obligations.OneResponsePerCommand := by
  intro s w ps rest hpresented hrsp hhost
  obtain ⟨t, r, he, htr, -⟩ := exec_answers (decode w) { s with presented := ps }
  obtain ⟨-, htp, hth, -⟩ := commandFrame _ _ t he
  have htake : t.host = .take :: rest := hth.trans hhost
  have hstep : step t = .next (takeResponse { t with host := rest }) :=
    step_eq_hostMove (.inr (by simp [htr])) htake
  exact ⟨t, _, r, (step_of_presented hpresented hrsp).trans he, htr, by simp [State.accepting, htr], htp, htake, hstep,
    rfl, htp, rfl, rfl, rfl, rfl, rfl⟩

/-! ## The address bits of COMPN's and COMPB's base -/

/-- What COMPN and COMPB share uses of the base its low `AW` bits (R43, R62). -/
theorem compute_eq_of_base_mod_eq {s : State} {base base' : Word}
    (h : base.toNat % 2 ^ s.config.addrBits = base'.toNat % 2 ^ s.config.addrBits) (form : Engine → BitVec 4) (p : Bool)
    (len : Word) : compute form p base len s = compute form p base' len s := by
  have haddr : effectiveAddress s.config base = effectiveAddress s.config base' := by
    funext k
    rw [effectiveAddress, effectiveAddress, h]
  have haddrs : messageAddresses s.config base len = messageAddresses s.config base' len := by
    rw [messageAddresses, messageAddresses, haddr]
  simp only [compute, message, haddrs]

/-- Settles O47. -/
theorem baseAboveAddressBitsIgnored : Obligations.BaseAboveAddressBitsIgnored := fun _ p _ _ len h =>
  ⟨compute_eq_of_base_mod_eq h _ p len, compute_eq_of_base_mod_eq h _ p len⟩

/-! ## The assembler (R70) -/

/-- The operands of a CFG line that fit their fields are the command's. -/
theorem assembleCfg_toNat (width : Byte) (poly init xorout : Word) (refin refout : Bool) :
    assembleCfg width.toNat poly.toNat init.toNat xorout.toNat refin.toNat refout.toNat =
      some (.cfg width poly init xorout refin refout) := by
  have hflag : ∀ b : Bool, (b.toNat == 1) = b := by decide
  have hfits : width.toNat < 2 ^ 8 ∧ poly.toNat < 2 ^ 64 ∧ init.toNat < 2 ^ 64 ∧ xorout.toNat < 2 ^ 64 ∧
      refin.toNat < 2 ∧ refout.toNat < 2 :=
    ⟨width.isLt, poly.isLt, init.isLt, xorout.isLt, refin.toNat_lt, refout.toNat_lt⟩
  rw [assembleCfg, if_pos hfits]
  simp only [BitVec.ofNat_toNat, BitVec.setWidth_eq, hflag]

theorem assembleRange_toNat (base len : Word) : assembleRange base.toNat len.toNat = some (base, len) := by
  rw [assembleRange, if_pos ⟨base.isLt, len.isLt⟩, BitVec.ofNat_toNat, BitVec.ofNat_toNat, BitVec.setWidth_eq,
    BitVec.setWidth_eq]

/-- A width above 255 does not fit (R70). -/
theorem assembleCfg_of_width_gt {width : Nat} (h : 255 < width) (poly init xorout refin refout : Nat) :
    assembleCfg width poly init xorout refin refout = none :=
  if_neg fun ⟨hw, _⟩ => by omega

theorem assembleCfg_wellFormed {width poly init xorout refin refout : Nat} {c : Instr}
    (h : assembleCfg width poly init xorout refin refout = some c) : c.wellFormed = true := by
  unfold assembleCfg at h
  split at h
  · cases h; rfl
  · contradiction

/-- A line stands for well-formed commands only. -/
theorem AsmLine.commands_wellFormed {l : AsmLine} {is : List Instr} (h : l.commands = some is) :
    ∀ i ∈ is, i.wellFormed = true := by
  cases l with
  | nop | build | compnNull | compbNull | rdst => cases h; decide
  | cfg width poly init xorout refin refout =>
    obtain ⟨c, hc, rfl⟩ := Option.map_eq_some_iff.1 h
    exact List.forall_mem_singleton.2 (assembleCfg_wellFormed hc)
  | setup width poly init xorout refin refout =>
    obtain ⟨c, hc, rfl⟩ := Option.map_eq_some_iff.1 h
    exact List.forall_mem_cons.2 ⟨assembleCfg_wellFormed hc, List.forall_mem_singleton.2 rfl⟩
  | compn base len | compb base len =>
    obtain ⟨r, -, rfl⟩ := Option.map_eq_some_iff.1 h
    exact List.forall_mem_singleton.2 rfl
  | rdtbl idx | rdprm sel =>
    obtain ⟨-, hcommand⟩ := Option.ite_none_right_eq_some.1 h
    cases hcommand
    exact List.forall_mem_singleton.2 rfl

/-- The words of a line decode to its commands, by the round trip. -/
theorem AsmLine.decode_assemble {l : AsmLine} {ws : List CommandWord} (h : l.assemble = some ws) :
    l.commands = some (ws.map decode) := by
  obtain ⟨is, his, rfl⟩ := Option.map_eq_some_iff.1 h
  have hround : ∀ i ∈ is, decode (encode i) = i := fun i hi =>
    decodeEncodeRoundTrip i (AsmLine.commands_wellFormed his i hi)
  rw [his, List.map_map, List.map_congr_left (f := decode ∘ encode) (g := id) hround, List.map_id]

/-- A CFG line whose operands fit assembles to the word of its command. -/
theorem AsmLine.assemble_cfg (width : Byte) (poly init xorout : Word) (refin refout : Bool) :
    (AsmLine.cfg width.toNat poly.toNat init.toNat xorout.toNat refin.toNat refout.toNat).assemble =
      some [encode (.cfg width poly init xorout refin refout)] := by
  rw [AsmLine.assemble, AsmLine.commands, assembleCfg_toNat]; rfl

/-- A SETUP line is its CFG and then BUILD. -/
theorem AsmLine.assemble_setup (width : Byte) (poly init xorout : Word) (refin refout : Bool) :
    (AsmLine.setup width.toNat poly.toNat init.toNat xorout.toNat refin.toNat refout.toNat).assemble =
      some [encode (.cfg width poly init xorout refin refout), encode .build] := by
  rw [AsmLine.assemble, AsmLine.commands, assembleCfg_toNat]; rfl

theorem AsmLine.assemble_compn (base len : Word) :
    (AsmLine.compn base.toNat len.toNat).assemble = some [encode (.compn true base len)] := by
  rw [AsmLine.assemble, AsmLine.commands, assembleRange_toNat]; rfl

theorem AsmLine.assemble_compb (base len : Word) :
    (AsmLine.compb base.toNat len.toNat).assemble = some [encode (.compb true base len)] := by
  rw [AsmLine.assemble, AsmLine.commands, assembleRange_toNat]; rfl

theorem AsmLine.assemble_rdtbl (idx : Byte) :
    (AsmLine.rdtbl idx.toNat).assemble = some [encode (.rdtbl idx)] := by
  rw [AsmLine.assemble, AsmLine.commands, if_pos idx.isLt, BitVec.ofNat_toNat, BitVec.setWidth_eq]; rfl

/-- A line without commands has no words. -/
theorem AsmLine.assemble_eq_none {l : AsmLine} (h : l.commands = none) : l.assemble = none := by
  rw [AsmLine.assemble, h, Option.map_none]

/-- Settles O57: a line that fits assembles to the encoding of its command, which the round trip decodes; the lines
without operands and the eight selectors are closed. -/
theorem assembledWordsDecode : Obligations.AssembledWordsDecode := by
  refine ⟨by decide, fun width poly init xorout refin refout => ⟨?_, ?_, ?_⟩, by decide,
    fun base len => ⟨?_, ?_, ?_, ?_⟩, by decide, by decide, fun idx => ⟨?_, ?_⟩, by decide, by decide, by decide,
    by decide, by decide, by decide, by decide, by decide, by decide,
    fun width poly init xorout refin refout h => ⟨?_, ?_⟩, fun idx h => ?_, fun sel h => ?_,
    fun l ws => AsmLine.decode_assemble⟩
  · exact AsmLine.assemble_cfg width poly init xorout refin refout
  · exact AsmLine.assemble_setup width poly init xorout refin refout
  · exact decodeEncodeRoundTrip (.cfg width poly init xorout refin refout) rfl
  · exact AsmLine.assemble_compn base len
  · exact decodeEncodeRoundTrip (.compn true base len) rfl
  · exact AsmLine.assemble_compb base len
  · exact decodeEncodeRoundTrip (.compb true base len) rfl
  · exact AsmLine.assemble_rdtbl idx
  · exact decodeEncodeRoundTrip (.rdtbl idx) rfl
  · exact AsmLine.assemble_eq_none (by rw [AsmLine.commands, assembleCfg_of_width_gt h, Option.map_none])
  · exact AsmLine.assemble_eq_none (by rw [AsmLine.commands, assembleCfg_of_width_gt h, Option.map_none])
  · exact AsmLine.assemble_eq_none (if_neg (by omega))
  · exact AsmLine.assemble_eq_none (if_neg (by omega))

/-- Settles O59: the lines are literals, and the assembler computes on them. -/
theorem linesOfTextAssemble : Obligations.LinesOfTextAssemble := by
  unfold Obligations.LinesOfTextAssemble
  decide

end Sys2Proof.Machine

/-! # The parameter validator: the mask, and what a CFG checks, writes and leaves alone -/

namespace Sys2Proof.Machine

/-! ## The mask (R81) -/

theorem toNat_mask {w : Nat} (hw : w ≤ 64) : (mask w).toNat = 2 ^ w - 1 := by
  apply Nat.eq_of_testBit_eq
  intro i
  rw [BitVec.testBit_toNat, getLsbD_mask hw, Nat.testBit_two_pow_sub_one]

/-- Fitting the mask, bit by bit: no bit from `w` up is 1 (R83). -/
theorem le_mask_iff_getLsbD {w : Nat} (hw : w ≤ 64) (v : Word) : v ≤ mask w ↔ ∀ k, w ≤ k → v.getLsbD k = false := by
  refine ⟨fun h k hk => getLsbD_of_le_mask hw h hk, fun h => (le_mask_iff hw v).2 ?_⟩
  apply BitVec.eq_of_getLsbD_eq
  intro i _
  rw [BitVec.getLsbD_and, getLsbD_mask hw]
  by_cases hi : i < w
  · simp [hi]
  · simp [h i (Nat.le_of_not_lt hi)]

/-- Exceeding the mask is having a bit of the register at or above `w` (R83). -/
theorem mask_lt_iff_getLsbD {w : Nat} (hw : w ≤ 64) (v : Word) :
    mask w < v ↔ ∃ k, w ≤ k ∧ k ≤ 63 ∧ v.getLsbD k = true := by
  rw [← BitVec.not_le, le_mask_iff_getLsbD hw]
  simp only [not_forall, Bool.not_eq_false, exists_prop]
  exact exists_congr fun k => and_congr_right fun _ =>
    ⟨fun h => ⟨Nat.le_of_lt_succ (BitVec.lt_of_getLsbD h), h⟩, And.right⟩

/-- Settles O35, by the mask's number and its bits. -/
theorem maskIsOnesBelowWidth : Obligations.MaskIsOnesBelowWidth := fun w _ hw =>
  ⟨toNat_mask hw, fun i hi => by rw [getLsbD_mask hw, decide_eq_true hi],
    fun i hi _ => by rw [getLsbD_mask hw, decide_eq_false (Nat.not_lt.2 hi)]⟩

/-! ## The checks, branch by branch (R82, R83, R87) -/

section checks
variable {width : Byte} {poly init xorout : Word}

theorem cfgError_eq_widthRange (hw : width.toNat < 2 ∨ 64 < width.toNat) :
    cfgError width poly init xorout = some .widthRange := if_pos hw

theorem cfgError_eq_polyRange (h2 : 2 ≤ width.toNat) (h64 : width.toNat ≤ 64) (hp : mask width.toNat < poly) :
    cfgError width poly init xorout = some .polyRange := by
  rw [cfgError, if_neg (by omega), if_pos hp]

theorem cfgError_eq_initRange (h2 : 2 ≤ width.toNat) (h64 : width.toNat ≤ 64) (hp : poly ≤ mask width.toNat)
    (hi : mask width.toNat < init) : cfgError width poly init xorout = some .initRange := by
  rw [cfgError, if_neg (by omega), if_neg (BitVec.not_lt.2 hp), if_pos hi]

theorem cfgError_eq_xoroutRange (h2 : 2 ≤ width.toNat) (h64 : width.toNat ≤ 64) (hp : poly ≤ mask width.toNat)
    (hi : init ≤ mask width.toNat) (hx : mask width.toNat < xorout) :
    cfgError width poly init xorout = some .xoroutRange := by
  rw [cfgError, if_neg (by omega), if_neg (BitVec.not_lt.2 hp), if_neg (BitVec.not_lt.2 hi), if_pos hx]

/-- No other check exists (R86): the converse of `cfgError_eq_none`. -/
theorem cfgError_eq_none_of_fits (h2 : 2 ≤ width.toNat) (h64 : width.toNat ≤ 64) (hp : poly ≤ mask width.toNat)
    (hi : init ≤ mask width.toNat) (hx : xorout ≤ mask width.toNat) : cfgError width poly init xorout = none := by
  rw [cfgError, if_neg (by omega), if_neg (BitVec.not_lt.2 hp), if_neg (BitVec.not_lt.2 hi),
    if_neg (BitVec.not_lt.2 hx)]

/-- With the width in range, either all three values fit and no check fails, or one exceeds the mask and the cause is an
InvalidArgument other than WIDTH_RANGE. -/
theorem cfgError_cases_of_width (h2 : 2 ≤ width.toNat) (h64 : width.toNat ≤ 64) :
    ((poly ≤ mask width.toNat ∧ init ≤ mask width.toNat ∧ xorout ≤ mask width.toNat) ∧
      cfgError width poly init xorout = none) ∨
    ((mask width.toNat < poly ∨ mask width.toNat < init ∨ mask width.toNat < xorout) ∧
      ∃ c, cfgError width poly init xorout = some c ∧ c ≠ .widthRange ∧ c.code = .invalidArgument) := by
  by_cases hp : mask width.toNat < poly
  · exact .inr ⟨.inl hp, _, cfgError_eq_polyRange h2 h64 hp, nofun, rfl⟩
  have hp := mask_le_of_not_lt hp
  by_cases hi : mask width.toNat < init
  · exact .inr ⟨.inr (.inl hi), _, cfgError_eq_initRange h2 h64 hp hi, nofun, rfl⟩
  have hi := mask_le_of_not_lt hi
  by_cases hx : mask width.toNat < xorout
  · exact .inr ⟨.inr (.inr hx), _, cfgError_eq_xoroutRange h2 h64 hp hi hx, nofun, rfl⟩
  have hx := mask_le_of_not_lt hx
  exact .inl ⟨⟨hp, hi, hx⟩, cfgError_eq_none_of_fits h2 h64 hp hi hx⟩

/-! ## CFG (R80, R84, R85) -/

variable (refin refout : Bool) (s : State)

/-- A check that fails is answered, and nothing else changes (R85). -/
theorem exec_cfg_of_error {c : Cause} (h : cfgError width poly init xorout = some c) :
    exec (.cfg width poly init xorout refin refout) s = .next (s.answered (Response.error c) []) := by
  simp only [exec, execCfg, h, raise_eq]

/-- When every check passes, `PS` is written whole and nothing else (R84). -/
theorem exec_cfg_of_ok (h : cfgError width poly init xorout = none) :
    exec (.cfg width poly init xorout refin refout) s =
      .next ({ s with ps := some (cfgParams width poly init xorout refin refout) }.answered
        (Response.success 0 0) []) := by
  simp only [exec, execCfg, h, respond_eq, cfgParams]

end checks

/-- Settles O30: the checks pass, and the 7-bit width written is the operand. -/
theorem cfgAcceptsEveryValidSet : Obligations.CfgAcceptsEveryValidSet := by
  intro width poly init xorout refin refout s h2 h64 hp hi hx
  have hok := exec_cfg_of_ok refin refout s (cfgError_eq_none_of_fits h2 h64 hp hi hx)
  exact ⟨cfgParams width poly init xorout refin refout, _, hok, rfl, toNat_setWidth_width h64, rfl, rfl, rfl, rfl, rfl,
    rfl⟩

/-- Settles O31: a width out of range is the first check, and no later branch reports it. -/
theorem cfgChecksWidth : Obligations.CfgChecksWidth := by
  intro width poly init xorout refin refout s
  refine ⟨fun hw => ⟨exec_cfg_of_error refin refout s (cfgError_eq_widthRange hw), rfl⟩, fun h2 h64 => ?_⟩
  rcases cfgError_cases_of_width h2 h64 with ⟨-, hnone⟩ | ⟨-, c, hsome, hne, -⟩
  · exact ⟨_, _, exec_cfg_of_ok refin refout s hnone, rfl, nofun⟩
  · exact ⟨_, _, exec_cfg_of_error refin refout s hsome, rfl, hne⟩

/-- Settles O32: the two outcomes of the value checks, and the mask bit by bit, with no bit of a word left above 63. -/
theorem cfgChecksValues : Obligations.CfgChecksValues := by
  refine ⟨fun width poly init xorout refin refout s h2 h64 => ?_, fun w v _ hw => mask_lt_iff_getLsbD hw v,
    fun v hv => ?_⟩
  · rcases cfgError_cases_of_width h2 h64 with ⟨⟨hp, hi, hx⟩, hnone⟩ | ⟨hexceeds, c, hsome, -, hcode⟩
    · refine ⟨_, _, exec_cfg_of_ok refin refout s hnone, rfl, ⟨nofun, ?_⟩, fun _ => rfl⟩
      rintro (h | h | h)
      · exact absurd h (BitVec.not_lt.2 hp)
      · exact absurd h (BitVec.not_lt.2 hi)
      · exact absurd h (BitVec.not_lt.2 hx)
    · exact ⟨_, _, exec_cfg_of_error refin refout s hsome, rfl, ⟨fun _ => hexceeds, fun _ => hcode⟩,
        fun hne => absurd hcode hne⟩
  · obtain ⟨k, hk, hk63, -⟩ := (mask_lt_iff_getLsbD le_rfl v).1 hv
    omega

/-- Settles O33: each branch of the checks, answered. -/
theorem cfgReportsFirstFailure : Obligations.CfgReportsFirstFailure := by
  intro width poly init xorout refin refout s
  refine ⟨fun hw => ?_, fun h2 h64 => ⟨fun hp => ?_, fun hp hi => ?_, fun hp hi hx => ?_⟩, rfl, rfl, rfl, rfl⟩
  · exact exec_cfg_of_error refin refout s (cfgError_eq_widthRange hw)
  · exact exec_cfg_of_error refin refout s (cfgError_eq_polyRange h2 h64 hp)
  · exact exec_cfg_of_error refin refout s (cfgError_eq_initRange h2 h64 hp hi)
  · exact exec_cfg_of_error refin refout s (cfgError_eq_xoroutRange h2 h64 hp hi hx)

/-! ## CFG and the engine (R88, R179) -/

/-- Two results that are the same state but for `PS`, which in the second holds `q`. -/
def SameButPs (q : Option ParamSet) (a b : Result) : Prop := ∃ u, a = .next u ∧ b = .next { u with ps := q }

section withPs
variable (s : State) (q : Option ParamSet)

theorem compute_withPs (form : Engine → BitVec 4) (p : Bool) (base len : Word) :
    SameButPs q (compute form p base len s) (compute form p base len { s with ps := q }) := by
  obtain ⟨config, ps, eng, msg, presented, rsp, reads, host⟩ := s
  cases eng with
  | none => exact ⟨_, rfl, rfl⟩
  | some e =>
    cases p with
    | false => exact ⟨_, rfl, rfl⟩
    | true => exact ⟨_, rfl, rfl⟩

theorem execRdtbl_withPs (idx : Byte) : SameButPs q (execRdtbl idx s) (execRdtbl idx { s with ps := q }) := by
  obtain ⟨config, ps, eng, msg, presented, rsp, reads, host⟩ := s
  cases eng with
  | none => exact ⟨_, rfl, rfl⟩
  | some e => exact ⟨_, rfl, rfl⟩

theorem execRdprm_eng_withPs (field : ParamField) :
    SameButPs q (execRdprm .eng field s) (execRdprm .eng field { s with ps := q }) := by
  have hbank : { s with ps := q }.bank .eng = s.bank .eng := rfl
  unfold execRdprm
  rw [hbank]
  cases s.bank .eng with
  | none => exact ⟨_, rfl, rfl⟩
  | some p => exact ⟨_, rfl, rfl⟩

end withPs

/-- All a CFG can change is `PS` and the answer, whether its checks pass or not. -/
theorem exec_cfg_frame {width : Byte} {poly init xorout : Word} {refin refout : Bool} {s t : State}
    (h : exec (.cfg width poly init xorout refin refout) s = .next t) :
    ∃ q r, t = { s with ps := q }.answered r [] := by
  cases hc : cfgError width poly init xorout with
  | none => rw [exec_cfg_of_ok refin refout s hc] at h; cases h; exact ⟨_, _, rfl⟩
  | some c => rw [exec_cfg_of_error refin refout s hc] at h; cases h; exact ⟨s.ps, _, rfl⟩

/-- Settles O34: a CFG changes `PS` and the answer only, and the four commands of the engine read neither. -/
theorem cfgDoesNotRebuild : Obligations.CfgDoesNotRebuild := by
  intro width poly init xorout refin refout s t i h hi
  obtain ⟨q, r, rfl⟩ := exec_cfg_frame h
  have hsame : SameButPs q (exec i s) (exec i { s with ps := q }) := by
    rcases hi with ⟨p, base, len, rfl | rfl⟩ | ⟨idx, rfl⟩ | ⟨f, rfl⟩
    · exact compute_withPs s q _ p base len
    · exact compute_withPs s q _ p base len
    · exact execRdtbl_withPs s q idx
    · exact execRdprm_eng_withPs s q f
  obtain ⟨u, hu, hv⟩ := hsame
  exact ⟨rfl, u, _, hu, (exec_answered i _ r []).trans hv, rfl⟩

end Sys2Proof.Machine

/-! # The bit reflection unit: `reflect` is determined by its bits, and what it does to the mask, to itself, to powers of
two and to shifts -/

namespace Sys2Proof.Machine

section reflect
variable {v u : Word} {n k : Nat}

/-! ## The bits (R90) -/

theorem getLsbD_reflect_sub (hn : n ≤ 64) (hk : k < n) : (reflect v n).getLsbD (n - 1 - k) = v.getLsbD k := by
  have hlt : n - 1 - k < n := by omega
  have hback : n - 1 - (n - 1 - k) = k := by omega
  rw [getLsbD_reflect v n _ hn, hback, decide_eq_true hlt, Bool.true_and]

theorem getLsbD_reflect_of_le (hn : n ≤ 64) (hk : n ≤ k) : (reflect v n).getLsbD k = false :=
  getLsbD_of_le_mask hn (reflect_le_mask v hn) hk

/-- R90 determines `reflect`: a value inside the mask with the reversed bits is the reflection. -/
theorem reflect_eq_of_getLsbD (hn : n ≤ 64) (hu : u ≤ mask n) (h : ∀ k < n, u.getLsbD k = v.getLsbD (n - 1 - k)) :
    reflect v n = u := by
  apply BitVec.eq_of_getLsbD_eq
  intro i _
  by_cases hi : i < n
  · rw [h i hi, getLsbD_reflect v n i hn, decide_eq_true hi, Bool.true_and]
  · rw [getLsbD_reflect_of_le hn (Nat.le_of_not_lt hi), getLsbD_of_le_mask hn hu (Nat.le_of_not_lt hi)]

/-! ## The mask (R92 clauses 2 and 3) -/

theorem getLsbD_and_mask_of_lt (hn : n ≤ 64) (hk : k < n) : (v &&& mask n).getLsbD k = v.getLsbD k := by
  rw [BitVec.getLsbD_and, getLsbD_mask hn, decide_eq_true hk, Bool.and_true]

/-- Bits `n` and above of the input have no influence (R90). -/
theorem reflect_and_mask (hn : n ≤ 64) : reflect (v &&& mask n) n = reflect v n := by
  refine reflect_eq_of_getLsbD hn (reflect_le_mask v hn) fun k hk => ?_
  rw [getLsbD_and_mask_of_lt hn (by omega), getLsbD_reflect v n k hn, decide_eq_true hk, Bool.true_and]

theorem reflect_reflect (hn : n ≤ 64) : reflect (reflect v n) n = v &&& mask n := by
  refine reflect_eq_of_getLsbD hn (and_mask_le hn v) fun k hk => ?_
  rw [getLsbD_and_mask_of_lt hn hk, getLsbD_reflect_sub hn hk]

theorem reflect_zero (hn : n ≤ 64) : reflect 0 n = 0 :=
  reflect_eq_of_getLsbD hn (zero_le_mask n) fun k _ => by simp

theorem reflect_mask (hn : n ≤ 64) : reflect (mask n) n = mask n := by
  refine reflect_eq_of_getLsbD hn (BitVec.le_refl _) fun k hk => ?_
  have hflip : n - 1 - k < n := by omega
  rw [getLsbD_mask hn, getLsbD_mask hn, decide_eq_true hk, decide_eq_true hflip]

/-! ## Powers of two and the right shift (R92 clauses 4 and 5) -/

theorem ofNat_two_pow_eq_twoPow (w k : Nat) : BitVec.ofNat w (2 ^ k) = BitVec.twoPow w k :=
  BitVec.eq_of_toNat_eq (by rw [BitVec.toNat_ofNat, BitVec.toNat_twoPow])

/-- The one bit of a power of two goes to the mirrored place. -/
theorem reflect_twoPow (hn : n ≤ 64) (hk : k < n) : reflect (BitVec.twoPow 64 k) n = BitVec.twoPow 64 (n - 1 - k) := by
  refine reflect_eq_of_getLsbD hn ((le_mask_iff_getLsbD hn _).2 fun i hi => ?_) fun i hi => ?_
  · have hne : n - 1 - k ≠ i := by omega
    rw [BitVec.getLsbD_twoPow, decide_eq_false hne, Bool.and_false]
  · simp only [BitVec.getLsbD_twoPow, ← Bool.decide_and, decide_eq_decide]
    omega

/-- A right shift brings in the bit above the field; inside the mask it is 0, as is the bit a left shift brings in. -/
theorem reflect_ushiftRight_one (hn : n ≤ 64) (hv : v ≤ mask n) :
    reflect (v >>> 1) n = (reflect v n <<< 1) &&& mask n := by
  refine reflect_eq_of_getLsbD hn (and_mask_le hn _) fun k hk => ?_
  rw [getLsbD_and_mask_of_lt hn hk, BitVec.getLsbD_shiftLeft, BitVec.getLsbD_ushiftRight]
  cases k with
  | zero =>
    have htop : n ≤ 1 + (n - 1 - 0) := by omega
    rw [getLsbD_of_le_mask hn hv htop]
    simp
  | succ k =>
    have hflip : 1 + (n - 1 - (k + 1)) = n - 1 - k := by omega
    have hk64 : k + 1 < 64 := by omega
    have hkn : k < n := by omega
    rw [hflip, Nat.add_sub_cancel, getLsbD_reflect v n k hn]
    simp [hk64, hkn]

end reflect

/-- Settles O36: the bits from the input's side, and the input masked. -/
theorem reflectReversesBits : Obligations.ReflectReversesBits := fun _ _ _ hn =>
  ⟨fun _ hk => getLsbD_reflect_sub hn hk, fun _ hj _ => getLsbD_reflect_of_le hn hj, (reflect_and_mask hn).symm⟩

/-- Settles O37, clause by clause; 1 and `2^(n-1)` are the powers of two at the two ends of the field. -/
theorem reflectLaws : Obligations.ReflectLaws := by
  intro v u n h1 hn
  have hone : reflect (BitVec.twoPow 64 0) n = BitVec.twoPow 64 (n - 1) := reflect_twoPow hn h1
  have htop : reflect (BitVec.twoPow 64 (n - 1)) n = BitVec.twoPow 64 0 := by
    rw [reflect_twoPow hn (by omega), Nat.sub_self]
  rw [ofNat_two_pow_eq_twoPow]
  exact ⟨reflect_le_mask v hn, reflect_reflect hn, reflect_xor_bits v u hn, reflect_zero hn, reflect_mask hn, hone, htop,
    reflect_ushiftRight_one hn⟩

end Sys2Proof.Machine

/-! # The table lookup engine: what BUILD and RDTBL answer, and the table entry as a bit-serial register -/

namespace Sys2Proof.Machine

/-! ## BUILD and RDTBL, branch by branch (R100, R101, R108) -/

section commands
variable {s : State}

theorem exec_build_of_none (h : s.ps = none) :
    exec .build s = .next (s.answered (Response.error .paramsAbsent) []) := by
  simp only [exec, execBuild, h, raise_eq]

theorem exec_build_of_some {p : ParamSet} (h : s.ps = some p) :
    exec .build s =
      .next ({ s with eng := some (newEngine s.config.narrowRule p) }.answered (Response.success 0 0) []) := by
  simp only [exec, execBuild, h, respond_eq]

theorem exec_rdtbl_of_none (h : s.eng = none) (idx : Byte) :
    exec (.rdtbl idx) s = .next (s.answered (Response.error .engineAbsent) []) := by
  simp only [exec, execRdtbl, h, raise_eq]

theorem exec_rdtbl_of_some {e : Engine} (h : s.eng = some e) (idx : Byte) :
    exec (.rdtbl idx) s = .next (s.answered (Response.success 8 (e.lookup idx)) []) := by
  simp only [exec, execRdtbl, h, respond_eq]

end commands

/-- Settles O38: the engine written is `newEngine`, whose entries are `buildTable_lookup`'s. -/
theorem buildConstructsEngine : Obligations.BuildConstructsEngine :=
  ⟨fun s p hp => ⟨newEngine s.config.narrowRule p, _, exec_build_of_some hp, rfl, newEngine_params _ p,
    buildTable_lookup _ p, rfl, hp⟩, fun _ => exec_build_of_none⟩

/-- Settles O39: the answer of the first BUILD does not change what the second does, nor does the engine it wrote. -/
theorem rebuildReproducesEngine : Obligations.RebuildReproducesEngine := by
  intro s t h
  cases hp : s.ps with
  | none =>
    have hbuild := exec_build_of_none hp
    rw [hbuild] at h; cases h
    rw [exec_answered, hbuild]
  | some p =>
    rw [exec_build_of_some hp] at h; cases h
    rw [exec_answered]
    exact exec_build_of_some hp

/-- Settles O43; the entry's high bits are 0 because a valid engine's table fits the mask. -/
theorem rdtblAnswersEntry : Obligations.RdtblAnswersEntry := by
  refine ⟨fun _ _ idx he => exec_rdtbl_of_some he idx, fun _ idx he => exec_rdtbl_of_none he idx, ?_⟩
  intro s e idx k hs he hk _
  have hv : e.Valid s.config.narrowRule := hs.eng e he
  exact getLsbD_of_le_mask hv.params.width_le (hv.table_le idx) hk

/-! ## Step 1: the index, reflected or not (R102) -/

theorem reflectIf_xor (f : Bool) (u v : Word) {n : Nat} (hn : n ≤ 64) :
    reflectIf f (u ^^^ v) n = reflectIf f u n ^^^ reflectIf f v n := by
  cases f with
  | false => rfl
  | true => exact reflect_xor_bits u v hn

/-- Masking after a reflection or before it is the same: steps 4 and 5 of R105 exchange. -/
theorem reflectIf_and_mask (f : Bool) (v : Word) {n : Nat} (hn : n ≤ 64) :
    reflectIf f v n &&& mask n = reflectIf f (v &&& mask n) n := by
  cases f with
  | false => rfl
  | true =>
    calc reflect v n &&& mask n
        _ = reflect v n := (le_mask_iff hn _).1 (reflect_le_mask v hn)
        _ = reflect (v &&& mask n) n := (reflect_and_mask hn).symm

theorem inByte_le_mask (refin : Bool) (i : Byte) : inByte refin i ≤ mask 8 :=
  reflectIf_le_mask refin (by decide) ((le_mask_iff_getLsbD (by decide) _).2 fun k hk => by
    rw [BitVec.getLsbD_setWidth, BitVec.getLsbD_of_ge i k hk, Bool.and_false])

/-- The register is loaded with a byte: the truncation of `inByte` loses nothing. -/
theorem setWidth_inByte (refin : Bool) (i : Byte) : ((inByte refin i).setWidth 8).setWidth 64 = inByte refin i := by
  simpa using setWidth_scaled (w := 8) (by decide) (inByte_le_mask refin i)

theorem inByte_xor (refin : Bool) (i j : Byte) : inByte refin (i ^^^ j) = inByte refin i ^^^ inByte refin j := by
  rw [inByte, BitVec.setWidth_xor, reflectIf_xor refin _ _ (by decide)]
  rfl

/-! ## The entry (R105, R106, R109) -/

section entry
variable {w : Nat} {poly : Word} (rule : NarrowRule) (refin : Bool)

/-- R105 for both values of `refin`: the entry is `Plain` of the byte the register is loaded with, reflected when
`refin`. -/
theorem tableEntry_eq_plain (h2 : 2 ≤ w) (hw : w ≤ 64) (hp : poly ≤ mask w) (i : Byte) :
    tableEntry rule w poly refin i = reflectIf refin (plain w poly ((inByte refin i).setWidth 8)) w := by
  rw [tableEntry, reflectIf_and_mask refin _ hw, ← setWidth_inByte, tableRegister_mask rule h2 hw hp, setWidth_inByte]

theorem plain_xor (hw : w ≤ 64) (b b' : Byte) : plain w poly (b ^^^ b') = plain w poly b ^^^ plain w poly b' :=
  serialByte_xor hw false 0 0 b b'

/-- Seven rounds of zeros leave the register 0, and the last bit brings the polynomial in. -/
theorem plain_one : plain w poly 1 = poly := by
  have hbits : byteBits false 1 = List.replicate 7 false ++ [true] := by decide
  rw [plain, serialByte, hbits]
  simp [serialBit]

theorem tableEntry_xor (h2 : 2 ≤ w) (hw : w ≤ 64) (hp : poly ≤ mask w) (i j : Byte) :
    tableEntry rule w poly refin (i ^^^ j) = tableEntry rule w poly refin i ^^^ tableEntry rule w poly refin j := by
  simp only [tableEntry_eq_plain rule refin h2 hw hp]
  rw [inByte_xor, BitVec.setWidth_xor, plain_xor hw, reflectIf_xor refin _ _ hw]

/-- A linear map sends 0 to 0. -/
theorem tableEntry_zero (h2 : 2 ≤ w) (hw : w ≤ 64) (hp : poly ≤ mask w) : tableEntry rule w poly refin 0 = 0 := by
  have hself := tableEntry_xor rule refin h2 hw hp 0 0
  rwa [BitVec.xor_self, BitVec.xor_self] at hself

/-- The rounds of a register masked in every round are bit-serial rounds with bit 0. -/
theorem repeat_serialBit_false (n : Nat) (r : Word) :
    Nat.repeat (serialBit w poly · false) n r = (List.replicate n false).foldl (serialBit w poly) r := by
  induction n with
  | zero => rfl
  | succ n ih => rw [Nat.repeat, ih, List.replicate_succ', List.foldl_append]; rfl

end entry

/-- Settles O40: the two values of `refin` in `tableEntry_eq_plain`. -/
theorem tableEntryEqualsPlain : Obligations.TableEntryEqualsPlain := by
  intro rule w poly i h2 hw hp
  have hbyte : (inByte false i).setWidth 8 = i := BitVec.setWidth_setWidth_of_le i (by decide)
  constructor
  · rw [tableEntry_eq_plain rule false h2 hw hp, hbyte]; rfl
  · exact tableEntry_eq_plain rule true h2 hw hp i

/-- Settles O41: linearity gives entry 0, and the indices 1 and 0x80 both load the register with 1. -/
theorem tableProperties : Obligations.TableProperties := by
  intro rule w poly refin i j h2 hw hp
  have hone (f : Bool) (k : Byte) (hk : (inByte f k).setWidth 8 = 1) :
      tableEntry rule w poly f k = reflectIf f poly w := by
    rw [tableEntry_eq_plain rule f h2 hw hp, hk, plain_one]
  exact ⟨tableEntry_zero rule refin h2 hw hp, tableEntry_xor rule refin h2 hw hp i j, hone false 1 (by decide),
    hone true 0x80 (by decide), tableEntry_le_mask hw rule refin i⟩

/-- Settles O42: the masked rounds are bit-serial rounds too, from the same byte at the top of the register, so both
registers end as `Plain` of that byte. -/
theorem widthBitRegisterIsEnough : Obligations.WidthBitRegisterIsEnough := by
  intro rule w poly refin i h8 hw hp
  have hround : (fun r : Word =>
      if r.getLsbD (w - 1) then ((r <<< 1) &&& mask w) ^^^ poly else (r <<< 1) &&& mask w) =
      (serialBit w poly · false) := by
    funext r
    rw [serialBit, Bool.xor_false]
  have hregister : Nat.repeat (serialBit w poly · false) 8 (inByte refin i <<< (w - 8)) =
      plain w poly ((inByte refin i).setWidth 8) := by
    rw [repeat_serialBit_false, ← rounds_from_top hw h8, setWidth_inByte]
  rw [hround, hregister, ← tableEntry_eq_plain rule refin (by omega) hw hp]
  exact ((le_mask_iff hw _).1 (tableEntry_le_mask hw rule refin i)).symm

end Sys2Proof.Machine

/-! # The compute path: the register byte by byte, the bit-serial CRC it computes, and what COMPN and COMPB answer -/

namespace Sys2Proof.Machine

/-! ## COMPN and COMPB, branch by branch (R120, R129 to R131) -/

section commands
variable {s : State}

theorem compute_of_none (h : s.eng = none) (form : Engine → BitVec 4) (p : Bool) (base len : Word) :
    compute form p base len s = .next (s.answered (Response.error .engineAbsent) []) := by
  simp only [compute, h, raise_eq]

theorem compute_of_no_data {e : Engine} (h : s.eng = some e) (form : Engine → BitVec 4) (base len : Word) :
    compute form false base len s = .next (s.answered (Response.error .dataAbsent) []) := by
  simp only [compute, h, raise_eq, Bool.false_eq_true, if_false]

theorem compute_of_data {e : Engine} (h : s.eng = some e) (form : Engine → BitVec 4) (base len : Word) :
    compute form true base len s =
      .next (s.answered (Response.success (form e) (e.check s.config.narrowRule (message s base len)))
        (messageAddresses s.config base len)) := by
  simp only [compute, h, if_true]

end commands

/-- Settles O44. -/
theorem computeChecksInOrder : Obligations.ComputeChecksInOrder :=
  ⟨fun _ p base len h => ⟨compute_of_none h _ p base len, compute_of_none h _ p base len⟩,
    fun _ _ base len h => ⟨compute_of_no_data h _ base len, compute_of_no_data h _ base len⟩⟩

/-! ## The byte step, case by case (R122 to R127) -/

/-- The low eight bits, as the spec masks them. -/
theorem ofNat_toNat_and_0xFF (v : Word) : BitVec.ofNat 8 (v &&& 0xFF).toNat = v.setWidth 8 := by
  apply BitVec.eq_of_toNat_eq
  have hmask : (0xFF : Word).toNat = 2 ^ 8 - 1 := by decide
  rw [BitVec.toNat_ofNat, BitVec.toNat_setWidth, BitVec.toNat_and, hmask, Nat.and_two_pow_sub_one_eq_mod, Nat.mod_mod]

section stepIndex
variable {rule : NarrowRule} {p : ParamSet} (crc : Word) (b : Byte)

theorem stepIndex_of_refin (hf : p.refin = true) : stepIndex rule p crc b = (crc ^^^ b.setWidth 64).setWidth 8 := by
  rw [stepIndex, if_pos hf]

theorem stepIndex_of_wide (hf : p.refin = false) (hw : 8 ≤ p.w) :
    stepIndex rule p crc b = ((crc >>> (p.w - 8)) ^^^ b.setWidth 64).setWidth 8 := by
  rw [stepIndex, if_neg (Bool.eq_false_iff.1 hf), if_pos hw]

theorem stepIndex_of_narrow (hf : p.refin = false) (hw : p.w ≤ 7) :
    stepIndex rule p crc b = ((crc <<< (8 - p.w)) ^^^ b.setWidth 64).setWidth 8 := by
  cases rule
  rw [stepIndex, if_neg (Bool.eq_false_iff.1 hf), if_neg (by omega)]

end stepIndex

section register
variable (rule : NarrowRule) (e : Engine)

theorem runRegister_append (data : List Byte) (b : Byte) :
    runRegister rule e (data ++ [b]) = byteStep rule e (runRegister rule e data) b := by
  rw [runRegister, List.foldl_append]
  rfl

theorem byteStep_of_refin (hf : e.params.refin = true) (crc : Word) (b : Byte) :
    byteStep rule e crc b = (e.lookup (stepIndex rule e.params crc b) ^^^ (crc >>> 8)) &&& mask e.params.w := by
  rw [byteStep, if_pos hf]

theorem byteStep_of_not_refin (hf : e.params.refin = false) (crc : Word) (b : Byte) :
    byteStep rule e crc b = (e.lookup (stepIndex rule e.params crc b) ^^^ (crc <<< 8)) &&& mask e.params.w := by
  rw [byteStep, if_neg (Bool.eq_false_iff.1 hf)]

theorem check_of_flags_ne (hf : e.params.refin ≠ e.params.refout) (data : List Byte) :
    e.check rule data = reflect (runRegister rule e data) e.params.w ^^^ e.params.xorout := by
  rw [Engine.check, reflectIf, if_pos (bne_iff_ne.2 hf)]

theorem check_of_flags_eq (hf : e.params.refin = e.params.refout) (data : List Byte) :
    e.check rule data = runRegister rule e data ^^^ e.params.xorout := by
  rw [Engine.check, hf, bne_self_eq_false, reflectIf, if_neg Bool.false_ne_true]

end register

/-- Settles O45, by the three indices of the byte step and the two cases of the flags. -/
theorem checkFollowsByteSteps : Obligations.CheckFollowsByteSteps := by
  intro rule e data b crc
  refine ⟨rfl, ?_⟩
  rintro rfl
  simp only [ofNat_toNat_and_0xFF, runRegister_append]
  refine ⟨fun hf => ?_, fun hf hw => ?_, fun hf hw => ?_, fun hf => check_of_flags_ne rule e hf data,
    fun hf => check_of_flags_eq rule e hf data⟩
  · rw [byteStep_of_refin rule e hf, stepIndex_of_refin _ b hf]
    rfl
  · rw [byteStep_of_not_refin rule e hf, stepIndex_of_wide _ b hf hw]
    rfl
  · rw [byteStep_of_not_refin rule e hf, stepIndex_of_narrow _ b hf hw]
    rfl

/-! ## The register inside the mask (R127, R134) -/

theorem runRegister_le_mask {rule : NarrowRule} {e : Engine} (he : e.Valid rule) (data : List Byte) :
    runRegister rule e data ≤ mask e.params.w :=
  foldl_byteStep_le_mask rule e he.params.width_le data (startRegister_le_mask he.params)

theorem check_le_mask {rule : NarrowRule} {e : Engine} (he : e.Valid rule) (data : List Byte) :
    e.check rule data ≤ mask e.params.w :=
  have hw := he.params.width_le
  xor_le_mask hw (reflectIf_le_mask _ hw (runRegister_le_mask he data)) he.params.xorout_le

/-- Settles O50. -/
theorem registerStaysInMask : Obligations.RegisterStaysInMask := fun _ _ data he =>
  ⟨runRegister_le_mask he data, check_le_mask he data⟩

/-! ## The table method against the bit-serial form (R128) -/

/-- Two reflections of a value inside the mask are one, asked for when the flags differ. -/
theorem reflectIf_bne {f g : Bool} {v : Word} {n : Nat} (hn : n ≤ 64) (hv : v ≤ mask n) :
    reflectIf (f != g) (reflectIf f v n) n = reflectIf g v n := by
  cases f with
  | false => rw [Bool.false_bne]; rfl
  | true =>
    cases g with
    | false => exact (reflect_reflect hn).trans ((le_mask_iff hn v).1 hv)
    | true => rfl

/-- Without `refin` the register is loaded with the index itself. -/
theorem setWidth_inByte_false (i : Byte) : (inByte false i).setWidth 8 = i :=
  BitVec.setWidth_setWidth_of_le i (by decide)

/-- One byte of the table method is one byte of the bit-serial register, both registers reflected when `refin`. -/
theorem byteStep_reflectIf {rule : NarrowRule} {e : Engine} (he : e.Valid rule) {r : Word}
    (hr : r ≤ mask e.params.w) (b : Byte) :
    byteStep rule e (reflectIf e.params.refin r e.params.w) b =
      reflectIf e.params.refin (serialByte e.params.w e.params.poly e.params.refin r b) e.params.w := by
  obtain ⟨hp, htable, -⟩ := he
  simp only [tableEntry_eq_plain rule _ hp.width_ge hp.width_le hp.poly_le] at htable
  cases hf : e.params.refin with
  | false =>
    rw [hf] at htable
    refine byteStep_plain hp hf (fun i => ?_) hr b
    rw [htable i, setWidth_inByte_false]
    rfl
  | true =>
    rw [hf] at htable
    exact byteStep_reflected hp hf htable hr b

/-- The table method's register is the bit-serial register after every message, reflected when `refin`. -/
theorem foldl_byteStep_reflectIf {rule : NarrowRule} {e : Engine} (he : e.Valid rule) (data : List Byte) {r : Word}
    (hr : r ≤ mask e.params.w) :
    data.foldl (byteStep rule e) (reflectIf e.params.refin r e.params.w) =
      reflectIf e.params.refin (data.foldl (serialByte e.params.w e.params.poly e.params.refin) r) e.params.w := by
  induction data generalizing r with
  | nil => rfl
  | cons b data ih =>
    rw [List.foldl_cons, byteStep_reflectIf he hr, List.foldl_cons]
    exact ih (serialByte_le_mask he.params.width_le he.params.poly_le _ hr b)

theorem foldl_serialByte_le_mask {p : ParamSet} (hp : p.Valid) (data : List Byte) {r : Word} (hr : r ≤ mask p.w) :
    data.foldl (serialByte p.w p.poly p.refin) r ≤ mask p.w := by
  induction data generalizing r with
  | nil => exact hr
  | cons b data ih => exact ih (serialByte_le_mask hp.width_le hp.poly_le _ hr b)

/-- Settles O51: the final reflection undoes the one of the reflected register, or adds the one `refout` asks for. -/
theorem checkEqualsBitSerial : Obligations.CheckEqualsBitSerial := by
  intro rule e data he
  have hp := he.params
  have hrun : runRegister rule e data =
      reflectIf e.params.refin
        (data.foldl (serialByte e.params.w e.params.poly e.params.refin) e.params.init) e.params.w :=
    foldl_byteStep_reflectIf he data hp.init_le
  rw [Engine.check, hrun, reflectIf_bne hp.width_le (foldl_serialByte_le_mask hp data hp.init_le), serial]

/-! ## The answers of COMPN and COMPB (R129 to R133) -/

/-- The result length of COMPB fits its four bits: at most eight bytes. -/
theorem toNat_ofNat_byteLength {e : Engine} (hw : e.params.w ≤ 64) :
    (BitVec.ofNat 4 e.byteLength).toNat = (e.params.w + 7) / 8 := by
  rw [BitVec.toNat_ofNat, Engine.byteLength, Nat.shiftRight_eq_div_pow]
  omega

/-- Settles O48. -/
theorem computeAnswersCheckValue : Obligations.ComputeAnswersCheckValue := fun _ _ base len he _ hw =>
  ⟨_, _, toNat_ofNat_byteLength hw, compute_of_data he _ base len, compute_of_data he _ base len⟩

theorem message_zero (s : State) (base : Word) : message s base 0 = [] := rfl

/-- Settles O52: a message of no bytes leaves the bit-serial register at its initial value. -/
theorem emptyMessageCheckValue : Obligations.EmptyMessageCheckValue := by
  intro s e base hs he
  have hanswer := compute_of_data he (fun _ => 8) base 0
  rw [message_zero, checkEqualsBitSerial _ e [] (hs.eng e he)] at hanswer
  exact ⟨_, hanswer⟩

/-! ## The byte array (R132) -/

theorem Response.toNat_byte (r : Response) (j : Nat) : (r.byte j).toNat = r.data.toNat / 2 ^ (8 * j) % 2 ^ 8 :=
  toNat_extractLsb'_eq_div_mod (8 * j) 8 r.data

@[simp] theorem Response.length_bytes (r : Response) : r.bytes.length = r.len.toNat := by
  rw [Response.bytes, List.length_map, List.length_range]

theorem Response.getElem?_bytes (r : Response) {j : Nat} (hj : j < r.len.toNat) : r.bytes[j]? = some (r.byte j) := by
  rw [Response.bytes, List.getElem?_map, List.getElem?_range hj, Option.map_some]

/-- The low `n` bytes of a response's data, the first one the least significant. -/
theorem Response.sum_bytes (r : Response) (n : Nat) :
    ((List.range n).map fun j => (r.byte j).toNat * 2 ^ (8 * j)).sum = r.data.toNat % 2 ^ (8 * n) := by
  induction n with
  | zero => simp [Nat.mod_one]
  | succ n ih =>
    rw [List.range_succ, List.map_append, List.sum_append, ih, List.map_singleton, List.sum_singleton,
      Response.toNat_byte, Nat.mul_succ, Nat.pow_add, Nat.mod_mul, Nat.mul_comm (2 ^ (8 * n))]

/-- The bytes above a value inside the mask are 0. -/
theorem Response.byte_eq_zero {r : Response} {w j : Nat} (hw : w ≤ 64) (hr : r.data ≤ mask w) (hj : w ≤ 8 * j) :
    r.byte j = 0 := by
  apply BitVec.eq_of_getLsbD_eq
  intro k _
  rw [Response.byte, BitVec.getLsbD_extractLsb', getLsbD_of_le_mask hw hr (by omega)]
  simp

theorem toNat_lt_of_le_mask {v : Word} {w n : Nat} (hw : w ≤ 64) (hv : v ≤ mask w) (hn : w ≤ n) :
    v.toNat < 2 ^ n := by
  have hle := BitVec.le_def.1 hv
  rw [toNat_mask hw] at hle
  have hpos := Nat.two_pow_pos w
  have hpow := Nat.pow_le_pow_right (n := 2) (by decide) hn
  omega

/-- Settles O49: the check value is inside the mask, so its `ceil(w / 8)` low bytes are all of it. -/
theorem resultFormsAgree : Obligations.ResultFormsAgree := by
  intro s e base len hs he
  have hv : e.Valid s.config.narrowRule := hs.eng e he
  have hw := hv.params.width_le
  have hdata := check_le_mask hv (message s base len)
  have hlen := toNat_ofNat_byteLength hw
  have hcover : e.params.w ≤ 8 * ((e.params.w + 7) / 8) := by omega
  refine ⟨_, _, _, _, compute_of_data he _ base len, rfl, compute_of_data he _ base len, rfl, rfl, rfl, ?_⟩
  generalize e.check s.config.narrowRule (message s base len) = c at hdata ⊢
  generalize BitVec.ofNat 4 e.byteLength = L at hlen ⊢
  have hbytes : (Response.success L c).bytes.length = (e.params.w + 7) / 8 := (Response.length_bytes _).trans hlen
  rw [hbytes]
  refine ⟨rfl, fun j hj => Response.getElem?_bytes _ (hj.trans_eq hlen.symm), ?_, fun j hj => ?_⟩
  · rw [Response.sum_bytes]
    exact (Nat.mod_eq_of_lt (toNat_lt_of_le_mask hw hdata hcover)).symm
  · exact Response.byte_eq_zero hw hdata (by omega)

end Sys2Proof.Machine

/-! # NOP, RDST and RDPRM: what each answers, and the status and CTRL words bit by bit -/

namespace Sys2Proof.Machine

/-! ## NOP and RDST (R140, R141) -/

/-- Settles O53. -/
theorem nopAnswersOk : Obligations.NopAnswersOk := respond_eq 0 0

theorem exec_rdst (s : State) : exec .rdst s = .next (s.answered (Response.success 8 s.statusWord) []) := rfl

section statusWord
variable (s : State)

theorem State.getLsbD_statusWord_zero : s.statusWord.getLsbD 0 = s.psValid := by
  rw [State.statusWord, BitVec.getLsbD_setWidth, BitVec.getLsbD_append]
  simp

theorem State.getLsbD_statusWord_one : s.statusWord.getLsbD 1 = s.engValid := by
  rw [State.statusWord, BitVec.getLsbD_setWidth, BitVec.getLsbD_append]
  simp

theorem State.getLsbD_statusWord_of_le {k : Nat} (hk : 2 ≤ k) : s.statusWord.getLsbD k = false := by
  rw [State.statusWord, BitVec.getLsbD_setWidth, BitVec.getLsbD_of_ge _ k hk, Bool.and_false]

end statusWord

/-- The invariant rules out `ENG.valid` without `PS.valid` (R29 clauses 3 and 4). -/
theorem State.Inv.statusWord_ne_two {s : State} (hs : s.Inv) : s.statusWord ≠ 2 := by
  intro h
  have hps := s.getLsbD_statusWord_zero
  have heng := s.getLsbD_statusWord_one
  rw [h] at hps heng
  have hvalid : s.psValid = true := hs.eng_needs_ps heng.symm
  exact absurd (hps.trans hvalid) (by decide)

/-- Settles O54: RDST answers the status word, whose value 2 the invariant rules out. -/
theorem rdstAnswersValidBits : Obligations.RdstAnswersValidBits := fun s =>
  ⟨_, exec_rdst s, s.getLsbD_statusWord_zero, s.getLsbD_statusWord_one, fun _ hk _ => s.getLsbD_statusWord_of_le hk,
    State.Inv.statusWord_ne_two⟩

/-! ## RDPRM (R142) -/

section rdprm
variable {s : State} {b : Bank}

theorem exec_rdprm_of_none (h : s.bank b = none) (f : ParamField) :
    exec (.rdprm b f) s = .next (s.answered (Response.error (absentCause b)) []) := by
  simp only [exec, execRdprm, h, raise_eq]

theorem exec_rdprm_of_some {p : ParamSet} (h : s.bank b = some p) (f : ParamField) :
    exec (.rdprm b f) s = .next (s.answered (Response.success 8 (p.field f)) []) := by
  simp only [exec, execRdprm, h, respond_eq]

/-- The bank holds the parameter set of its slot: that of `PS`, or the engine's own copy. -/
theorem State.bank_eq_some {p : ParamSet}
    (h : (b = .ps ∧ s.ps = some p) ∨ (b = .eng ∧ ∃ e, s.eng = some e ∧ e.params = p)) : s.bank b = some p := by
  rcases h with ⟨rfl, hps⟩ | ⟨rfl, e, heng, rfl⟩
  · exact hps
  · rw [State.bank, heng, Option.map_some]

theorem State.bank_eng_eq_none (h : s.eng = none) : s.bank .eng = none := by
  rw [State.bank, h, Option.map_none]

end rdprm

/-- The CTRL view as a number: the three fields do not overlap, and all ten bits fit the word. -/
theorem ParamSet.toNat_ctrl (p : ParamSet) :
    p.ctrl.toNat = p.width.toNat + 2 ^ 8 * p.refin.toNat + 2 ^ 9 * p.refout.toNat := by
  have hin := p.refin.toNat_le
  have hout := p.refout.toNat_le
  simp only [ParamSet.ctrl, BitVec.toNat_setWidth, toNat_append_eq_add, BitVec.toNat_ofBool]
  omega

/-- Settles O55: each of the four fields of a full bank, and the cause of an empty one. -/
theorem rdprmAnswersField : Obligations.RdprmAnswersField := by
  refine ⟨fun s b p h => ?_, fun s f h => exec_rdprm_of_none (b := .ps) h f,
    fun s f h => exec_rdprm_of_none (State.bank_eng_eq_none h) f⟩
  have hread := exec_rdprm_of_some (State.bank_eq_some h)
  exact ⟨hread .poly, hread .init, hread .xorout, p.ctrl, hread .ctrl, p.toNat_ctrl⟩

end Sys2Proof.Machine

/-! # Errors: which command raises which cause, and that a command that raises has no effect (spec/60_exceptions.md) -/

namespace Sys2Proof.Machine

/-! ## The cause a command raises (R150) -/

/-- What COMPN and COMPB raise, in the order of R120. -/
def computeError (present : Bool) (s : State) : Option Cause :=
  if s.engValid then if present then none else some .dataAbsent else some .engineAbsent

/-- What RDPRM raises on an empty bank (R142, R154). -/
def bankError (bank : Bank) (s : State) : Option Cause :=
  if (s.bank bank).isSome then none else some (absentCause bank)

/-- The cause a command raises in a state; `none` where it succeeds. `exec_answersError` ties it to `exec`. -/
def execError (s : State) : Instr → Option Cause
  | .nop => none
  | .cfg width poly init xorout _ _ => cfgError width poly init xorout
  | .build => if s.psValid then none else some .paramsAbsent
  | .compn present _ _ => computeError present s
  | .compb present _ _ => computeError present s
  | .rdtbl _ => if s.engValid then none else some .engineAbsent
  | .rdst => none
  | .rdprm bank _ => bankError bank s
  | .reserved _ => some .reservedOp

/-- A result is the error of the cause given, with the state as it was but for the answer, or, where no cause is given,
it is a success. -/
def AnswersError (s : State) (a : Result) : Option Cause → Prop
  | some c => a = .next (s.answered (Response.error c) [])
  | none => ∃ (u : State) (len : BitVec 4) (data : Word) (l : List Nat),
    a = .next (u.answered (Response.success len data) l)

theorem exec_reserved (op : BitVec 4) (s : State) :
    exec (.reserved op) s = .next (s.answered (Response.error .reservedOp) []) := raise_eq .reservedOp s

section answers
variable (s : State)

theorem compute_answersError (form : Engine → BitVec 4) (p : Bool) (base len : Word) :
    AnswersError s (compute form p base len s) (computeError p s) := by
  cases h : s.eng with
  | none => rw [computeError, State.engValid, h]; exact compute_of_none h form p base len
  | some e =>
    rw [computeError, State.engValid, h]
    cases p with
    | false => exact compute_of_no_data h form base len
    | true => exact ⟨s, _, _, _, compute_of_data h form base len⟩

/-- Every command, in every state, raises the cause `execError` gives, or succeeds where it gives none. -/
theorem exec_answersError (i : Instr) : AnswersError s (exec i s) (execError s i) := by
  cases i with
  | nop => exact ⟨s, _, _, _, respond_eq 0 0 s⟩
  | cfg width poly init xorout refin refout =>
    cases h : cfgError width poly init xorout with
    | none => rw [execError, h]; exact ⟨_, _, _, _, exec_cfg_of_ok refin refout s h⟩
    | some c => rw [execError, h]; exact exec_cfg_of_error refin refout s h
  | build =>
    cases h : s.ps with
    | none => rw [execError, State.psValid, h]; exact exec_build_of_none h
    | some p => rw [execError, State.psValid, h]; exact ⟨_, _, _, _, exec_build_of_some h⟩
  | compn p base len => exact compute_answersError s _ p base len
  | compb p base len => exact compute_answersError s _ p base len
  | rdtbl idx =>
    cases h : s.eng with
    | none => rw [execError, State.engValid, h]; exact exec_rdtbl_of_none h idx
    | some e => rw [execError, State.engValid, h]; exact ⟨_, _, _, _, exec_rdtbl_of_some h idx⟩
  | rdst => exact ⟨s, _, _, _, exec_rdst s⟩
  | rdprm b f =>
    cases h : s.bank b with
    | none => rw [execError, bankError, h]; exact exec_rdprm_of_none h f
    | some p => rw [execError, bankError, h]; exact ⟨_, _, _, _, exec_rdprm_of_some h f⟩
  | reserved op => exact exec_reserved op s

end answers

/-! ## A command that raises has no effect (R156, R157) -/

section inversion
variable {i : Instr} {s t : State} {r : Response}

/-- The response on the port of the next state is the error of the command's cause, with nothing else changed, or the
command raises no cause and its response is a success. -/
theorem exec_response_cases (h : exec i s = .next t) (hr : t.rsp = some r) :
    (∃ c, execError s i = some c ∧ t = s.answered r [] ∧ r = Response.error c) ∨
    (execError s i = none ∧ ∃ len data, r = Response.success len data) := by
  have hanswer := exec_answersError s i
  rw [h] at hanswer
  cases hc : execError s i with
  | some c =>
    rw [hc] at hanswer
    cases hanswer; cases hr
    exact .inl ⟨c, rfl, rfl, rfl⟩
  | none =>
    rw [hc] at hanswer
    obtain ⟨u, len, data, l, hu⟩ := hanswer
    cases hu; cases hr
    exact .inr ⟨rfl, len, data, rfl⟩

/-- A response that is not OK is the error of a cause, and all the command has done is to answer it. -/
theorem exec_eq_error_of_not_ok (h : exec i s = .next t) (hr : t.rsp = some r) (hne : r.code ≠ .ok) :
    ∃ c, r = Response.error c ∧ t = s.answered r [] := by
  rcases exec_response_cases h hr with ⟨c, -, ht, hc⟩ | ⟨-, len, data, rfl⟩
  · exact ⟨c, hc, ht⟩
  · exact absurd rfl hne

/-- The code of every response is that of its cause (R67). -/
theorem exec_response_code (h : exec i s = .next t) (hr : t.rsp = some r) : r.code = r.cause.code := by
  rcases exec_response_cases h hr with ⟨c, -, -, rfl⟩ | ⟨-, len, data, rfl⟩
  · rfl
  · rfl

/-- A cause of failure is reported exactly when the command raises it. -/
theorem exec_response_cause_iff (h : exec i s = .next t) (hr : t.rsp = some r) {c : Cause} (hne : c ≠ .none) :
    r.cause = c ↔ execError s i = some c := by
  rcases exec_response_cases h hr with ⟨c', hc', -, rfl⟩ | ⟨hnone, len, data, rfl⟩
  · rw [hc', Option.some.injEq]; rfl
  · rw [hnone]
    exact ⟨fun hc => absurd hc.symm hne, nofun⟩

end inversion

/-- Settles O22: the state after is the state before with the error answered, so the take leaves the state before and
the port accepts the next word presented. -/
theorem raisingHasNoEffect : Obligations.RaisingHasNoEffect := by
  intro i s t r h hr hne
  obtain ⟨c, rfl, rfl⟩ := exec_eq_error_of_not_ok h hr hne
  refine ⟨rfl, rfl, rfl, rfl, rfl, rfl, rfl, rfl, rfl, rfl, fun rest hhost => ?_⟩
  have htake := step_eq_hostMove (s := s.answered (Response.error c) []) (.inr (Option.some_ne_none _)) hhost
  exact ⟨_, htake, rfl, rfl, rfl, rfl, fun w ps hpresented => step_of_presented hpresented rfl⟩

/-- Settles O23: an error is only an answer, and an answer leaves nothing a later command reads. -/
theorem failedCommandLeavesNoTrace : Obligations.FailedCommandLeavesNoTrace := by
  intro i j s t r h hr hne
  obtain ⟨c, -, rfl⟩ := exec_eq_error_of_not_ok h hr hne
  exact exec_answered j s r []

/-- Settles O56: the decoder gives every such word to a reserved command, whose meaning is to raise. -/
theorem reservedWordIsIllegal : Obligations.ReservedWordIsIllegal := by
  refine ⟨fun w s hop => ?_, exec_reserved, rfl⟩
  rw [decode_eq_reserved hop]
  exact exec_reserved w.op s

/-! ## Each cause and its condition (R150 to R155) -/

section checks
variable {width : Byte} {poly init xorout : Word}

/-- CFG's checks, read from the cause: it is the first that fails, those before it having passed (R87). -/
theorem cfgError_cases {c : Cause} (h : cfgError width poly init xorout = some c) :
    (c = .widthRange ∧ (width.toNat < 2 ∨ 64 < width.toNat)) ∨
    (c = .polyRange ∧ 2 ≤ width.toNat ∧ width.toNat ≤ 64 ∧ poly > mask width.toNat) ∨
    (c = .initRange ∧ 2 ≤ width.toNat ∧ width.toNat ≤ 64 ∧ poly ≤ mask width.toNat ∧ init > mask width.toNat) ∨
    (c = .xoroutRange ∧ 2 ≤ width.toNat ∧ width.toNat ≤ 64 ∧ poly ≤ mask width.toNat ∧ init ≤ mask width.toNat ∧
      xorout > mask width.toNat) := by
  unfold cfgError at h
  split_ifs at h with hw hp hi hx <;> cases h
  · exact .inl ⟨rfl, hw⟩
  · exact .inr (.inl ⟨rfl, by omega, by omega, hp⟩)
  · exact .inr (.inr (.inl ⟨rfl, by omega, by omega, mask_le_of_not_lt hp, hi⟩))
  · exact .inr (.inr (.inr ⟨rfl, by omega, by omega, mask_le_of_not_lt hp, mask_le_of_not_lt hi, hx⟩))

theorem cfgError_eq_widthRange_iff :
    cfgError width poly init xorout = some .widthRange ↔ width.toNat < 2 ∨ 64 < width.toNat :=
  ⟨fun h => by simpa only [reduceCtorEq, true_and, false_and, or_false] using cfgError_cases h,
    cfgError_eq_widthRange⟩

theorem cfgError_eq_polyRange_iff :
    cfgError width poly init xorout = some .polyRange ↔ 2 ≤ width.toNat ∧ width.toNat ≤ 64 ∧
      poly > mask width.toNat :=
  ⟨fun h => by simpa using cfgError_cases h, fun ⟨h2, h64, hp⟩ => cfgError_eq_polyRange h2 h64 hp⟩

theorem cfgError_eq_initRange_iff :
    cfgError width poly init xorout = some .initRange ↔ 2 ≤ width.toNat ∧ width.toNat ≤ 64 ∧
      poly ≤ mask width.toNat ∧ init > mask width.toNat :=
  ⟨fun h => by simpa using cfgError_cases h, fun ⟨h2, h64, hp, hi⟩ => cfgError_eq_initRange h2 h64 hp hi⟩

theorem cfgError_eq_xoroutRange_iff :
    cfgError width poly init xorout = some .xoroutRange ↔ 2 ≤ width.toNat ∧ width.toNat ≤ 64 ∧
      poly ≤ mask width.toNat ∧ init ≤ mask width.toNat ∧ xorout > mask width.toNat :=
  ⟨fun h => by simpa using cfgError_cases h, fun ⟨h2, h64, hp, hi, hx⟩ => cfgError_eq_xoroutRange h2 h64 hp hi hx⟩

/-- Every check of CFG that fails is an InvalidArgument (R151). -/
theorem cfgError_ne_some {c : Cause} (hc : c.code ≠ .invalidArgument) : cfgError width poly init xorout ≠ some c := by
  intro h
  rcases cfgError_cases h with ⟨rfl, -⟩ | ⟨rfl, -⟩ | ⟨rfl, -⟩ | ⟨rfl, -⟩ <;> exact hc rfl

end checks

theorem computeError_eq_some_iff {p : Bool} {s : State} {c : Cause} :
    computeError p s = some c ↔
      (s.engValid = true ∧ p = false ∧ .dataAbsent = c) ∨ (s.engValid = false ∧ .engineAbsent = c) := by
  unfold computeError
  cases s.engValid <;> cases p <;> simp

theorem bankError_eq_some_iff {b : Bank} {s : State} {c : Cause} :
    bankError b s = some c ↔
      (s.psValid = false ∧ b = .ps ∧ .paramsAbsent = c) ∨ (s.engValid = false ∧ b = .eng ∧ .engineAbsent = c) := by
  cases b with
  | ps =>
    have hvalid : (s.bank .ps).isSome = s.psValid := rfl
    simp [bankError, absentCause, hvalid]
  | eng =>
    have hvalid : (s.bank .eng).isSome = s.engValid := Option.isSome_map
    simp [bankError, absentCause, hvalid]

section rows
variable (s : State) (i : Instr)

/-- Only a CFG raises an InvalidArgument (R151). -/
theorem execError_eq_invalidArgument_iff {c : Cause} (hc : c.code = .invalidArgument) :
    execError s i = some c ↔ ∃ width poly init xorout refin refout,
      i = .cfg width poly init xorout refin refout ∧ cfgError width poly init xorout = some c := by
  have hother : .paramsAbsent ≠ c ∧ .dataAbsent ≠ c ∧ .engineAbsent ≠ c ∧ .reservedOp ≠ c := by
    refine ⟨?_, ?_, ?_, ?_⟩ <;> rintro rfl <;> cases hc
  obtain ⟨hparams, hdata, hengine, hreserved⟩ := hother
  cases i with
  | cfg width poly init xorout refin refout =>
    constructor
    · exact fun h => ⟨width, poly, init, xorout, refin, refout, rfl, h⟩
    · rintro ⟨_, _, _, _, _, _, ⟨⟩, h⟩
      exact h
  | _ => simp [execError, computeError_eq_some_iff, bankError_eq_some_iff, hparams, hdata, hengine, hreserved]

theorem execError_eq_paramsAbsent_iff :
    execError s i = some .paramsAbsent ↔ s.psValid = false ∧ (i = .build ∨ ∃ f, i = .rdprm .ps f) := by
  cases i with
  | cfg width poly init xorout _ _ => simp [execError, cfgError_ne_some (c := .paramsAbsent) (by decide)]
  | _ => simp [execError, computeError_eq_some_iff, bankError_eq_some_iff]

theorem execError_eq_dataAbsent_iff :
    execError s i = some .dataAbsent ↔
      s.engValid = true ∧ ∃ base len, i = .compn false base len ∨ i = .compb false base len := by
  cases i with
  | cfg width poly init xorout _ _ => simp [execError, cfgError_ne_some (c := .dataAbsent) (by decide)]
  | _ => simp [execError, computeError_eq_some_iff, bankError_eq_some_iff]

theorem execError_eq_engineAbsent_iff :
    execError s i = some .engineAbsent ↔ s.engValid = false ∧
      ((∃ p base len, i = .compn p base len ∨ i = .compb p base len) ∨ (∃ idx, i = .rdtbl idx) ∨
        ∃ f, i = .rdprm .eng f) := by
  cases i with
  | cfg width poly init xorout _ _ => simp [execError, cfgError_ne_some (c := .engineAbsent) (by decide)]
  | _ => simp [execError, computeError_eq_some_iff, bankError_eq_some_iff]

theorem execError_eq_reservedOp_iff :
    execError s i = some .reservedOp ↔ ∃ op, i = .reserved op := by
  cases i with
  | cfg width poly init xorout _ _ => simp [execError, cfgError_ne_some (c := .reservedOp) (by decide)]
  | _ => simp [execError, computeError_eq_some_iff, bankError_eq_some_iff]

end rows

/-- Settles O28: the response's cause is the one the command raises, row by row of R150's list. -/
theorem errorConditionsAreComplete : Obligations.ErrorConditionsAreComplete := by
  intro i s t r h hr
  have hcause : ∀ c, c ≠ .none → (r.cause = c ↔ execError s i = some c) := fun _ => exec_response_cause_iff h hr
  have hcfg : ∀ c, c ≠ .none → c.code = .invalidArgument → (r.cause = c ↔ ∃ w p n x ri ro,
      i = .cfg w p n x ri ro ∧ cfgError w p n x = some c) := fun c hne hc =>
    (hcause c hne).trans (execError_eq_invalidArgument_iff s i hc)
  refine ⟨?_, ?_, ?_, ?_, ?_, ?_, ?_, ?_, ?_⟩
  · exact exec_response_code h hr
  · simpa only [cfgError_eq_widthRange_iff] using hcfg .widthRange nofun rfl
  · simpa only [cfgError_eq_polyRange_iff] using hcfg .polyRange nofun rfl
  · simpa only [cfgError_eq_initRange_iff] using hcfg .initRange nofun rfl
  · simpa only [cfgError_eq_xoroutRange_iff] using hcfg .xoroutRange nofun rfl
  · exact (hcause .paramsAbsent nofun).trans (execError_eq_paramsAbsent_iff s i)
  · exact (hcause .dataAbsent nofun).trans (execError_eq_dataAbsent_iff s i)
  · exact (hcause .engineAbsent nofun).trans (execError_eq_engineAbsent_iff s i)
  · exact (hcause .reservedOp nofun).trans (execError_eq_reservedOp_iff s i)

end Sys2Proof.Machine

/-! # Reset, and a word that waits on the command port -/

namespace Sys2Proof.Machine

/-! ## Reset (R170, R171) -/

/-- The step of a presented command that is accepted and cut short by reset. -/
theorem step_of_cut {s : State} {w : CommandWord} {ps : List Presentation} (h : s.presented = ⟨w, true⟩ :: ps)
    (hr : s.rsp = none) : step s = .next (applyReset { s with presented := ps }) := by
  simp [step, State.accepted_of h hr]

/-- A command takes no valid bit from 1 to 0: what it writes to a slot, it writes whole and valid (R24). -/
theorem exec_keeps_valid {i : Instr} {s t : State} (h : exec i s = .next t) :
    (s.psValid = true → t.psValid = true) ∧ (s.engValid = true → t.engValid = true) := by
  rcases exec_next_cases h with ⟨r, l, -, -, rfl⟩ | ⟨_, _, _, _, _, _, -, -, rfl⟩ | ⟨p, -, -, rfl⟩
  · exact ⟨id, id⟩
  · exact ⟨fun _ => rfl, id⟩
  · exact ⟨id, fun _ => rfl⟩

/-- A step that applies no reset takes no valid bit from 1 to 0. -/
theorem step_keeps_valid {s t : State} (h : step s = .next t) (hreset : s.resetsNext ≠ true) :
    (s.psValid = true → t.psValid = true) ∧ (s.engValid = true → t.engValid = true) := by
  rcases step_slots h with hr | ⟨hps, heng⟩ | ⟨w, ps, -, -, he⟩
  · exact absurd hr hreset
  · simp [State.psValid, State.engValid, hps, heng]
  · have hkeeps := exec_keeps_valid he
    exact hkeeps

/-- Settles O14: the step of a reset is `applyReset`, and no other step takes a valid bit from 1 to 0. -/
theorem resetClearsValidBits : Obligations.ResetClearsValidBits := by
  refine ⟨fun s rest hwait hhost => ?_, fun s t h hfall => ?_⟩
  · exact ⟨_, step_eq_hostMove hwait hhost, rfl, rfl, rfl, rfl, rfl, rfl, rfl, rfl⟩
  · by_contra hreset
    obtain ⟨hps, heng⟩ := step_keeps_valid h hreset
    rcases hfall with ⟨hs, ht⟩ | ⟨hs, ht⟩
    · simp [hps hs] at ht
    · simp [heng hs] at ht

/-- Settles O15: both steps are `applyReset`, of states that differ in the words presented only. -/
theorem resetDuringCommandIsReset : Obligations.ResetDuringCommandIsReset := by
  intro s w ps hpresented hrsp
  have hplain : step { s with presented := [], host := .reset :: s.host } =
      .next (applyReset { s with presented := [] }) :=
    step_eq_hostMove (m := .reset) (rest := s.host) (.inl rfl) rfl
  exact ⟨_, step_of_cut hpresented hrsp, hplain, rfl, rfl, rfl, rfl, rfl⟩

/-! ## A word that waits is accepted (R175, R183, U8) -/

/-- A move of the host takes none of the moves after it. -/
@[simp] theorem HostMove.apply_host (m : HostMove) (s : State) : (m.apply s).host = s.host := by
  cases m <;> rfl

/-- A move of the host leaves the word that is presented first where it is. -/
theorem HostMove.apply_presented_cons (m : HostMove) {s : State} {p : Presentation} {ps : List Presentation}
    (h : s.presented = p :: ps) : ∃ ps', (m.apply s).presented = p :: ps' := by
  cases m with
  | command w => exact ⟨ps ++ [⟨w, false⟩], by simp [HostMove.apply, h]⟩
  | resetDuring w => exact ⟨ps ++ [⟨w, true⟩], by simp [HostMove.apply, h]⟩
  | write _ _ => exact ⟨ps, h⟩
  | take => exact ⟨ps, h⟩
  | reset => exact ⟨ps, h⟩

/-- A take and a reset empty the response port, so a list of moves that holds one starts with it or holds it later. -/
theorem HostMove.apply_rsp_or_mem {m : HostMove} {rest : List HostMove}
    (h : .take ∈ m :: rest ∨ .reset ∈ m :: rest) (s : State) :
    (m.apply s).rsp = none ∨ (.take ∈ rest ∨ .reset ∈ rest) := by
  cases m with
  | take => exact .inl rfl
  | reset => exact .inl rfl
  | _ => exact .inr (by simpa using h)

/-- With a take or a reset to come, the port accepts after at most as many steps as there are moves, and the word
presented first is still first. -/
theorem exists_run_accepting {p : Presentation} (moves : List HostMove) :
    ∀ (s : State) (ps : List Presentation), s.host = moves → s.presented = p :: ps →
      .take ∈ moves ∨ .reset ∈ moves →
      ∃ k u ps', k ≤ moves.length ∧ Sys2Proof.core.run k s = .next u ∧ u.rsp = none ∧ u.presented = p :: ps' := by
  induction moves with
  | nil => intro _ _ _ _ hmem; simp at hmem
  | cons m rest ih =>
    intro s ps hhost hpresented hmem
    by_cases hrsp : s.rsp = none
    · exact ⟨0, s, ps, Nat.zero_le _, rfl, hrsp, hpresented⟩
    have hstep : step s = .next (m.apply { s with host := rest }) := step_eq_hostMove (.inr hrsp) hhost
    obtain ⟨ps', hps'⟩ := m.apply_presented_cons (s := { s with host := rest }) hpresented
    rcases HostMove.apply_rsp_or_mem hmem { s with host := rest } with hnone | hlater
    · exact ⟨1, _, ps', by simp, core_run_succ 0 hstep, hnone, hps'⟩
    · obtain ⟨k, u, qs, hk, hrun, hu, hqs⟩ := ih _ ps' (m.apply_host _) hps' hlater
      exact ⟨k + 1, u, qs, Nat.succ_le_succ hk, (core_run_succ k hstep).trans hrun, hu, hqs⟩

/-- Settles O58, by induction on the moves to come; where the port accepts, the step runs the word presented first. -/
theorem waitingCommandIsAccepted : Obligations.WaitingCommandIsAccepted := by
  intro s w ps hpresented hmem
  obtain ⟨k, u, ps', hk, hrun, hu, hps'⟩ := exists_run_accepting s.host s ps rfl hpresented hmem
  exact ⟨k, u, ps', hk, hrun, hu, hps', step_of_presented hps' hu⟩

end Sys2Proof.Machine

/-! # The word of a row of the opcode table, placed on the command port -/

namespace Sys2Proof.Machine

/-- Bits no longer than a command word decode as the word they are the low bits of. -/
theorem decodeTableWord_of_le {nbits : Nat} (h : nbits ≤ 208) (w : Nat) :
    decodeTableWord nbits w = some (decode (tableWord nbits w)) := by
  simp [decodeTableWord, decodeBits, h]

/-- Settles O9: the placed word is presented first and no response waits, so it is accepted, which leaves the words that
were presented before it was placed. -/
theorem fetchWordRunsNext : Obligations.FetchWordRunsNext := by
  intro s nbits w i hle hdecode
  obtain rfl : decode (tableWord nbits w) = i := Option.some.inj ((decodeTableWord_of_le hle w).symm.trans hdecode)
  exact step_of_presented (s.withFetchWord_presented nbits w) (s.withFetchWord_rsp nbits w)

end Sys2Proof.Machine
